-- ==== Sys2Proof/Word.lean ====
section
/-! DEFINITION. The kinds of value the engine handles and the width primitives of 00_scope.md R10: bit vectors for
what the spec treats as bits, `Int` for its unbounded layer, and the eight slots of a vector. -/

namespace Sys2Proof

/-- A vector of 8 slots, numbered `1..8` (00_scope.md R9, 30_encoding.md R52): of counts in the engine, of integers in
the source's layer. A vector of another length is not a term (R61, 93_implementation_defined.md U8). -/
structure Slots (α : Type) where
  c1 : α
  c2 : α
  c3 : α
  c4 : α
  c5 : α
  c6 : α
  c7 : α
  c8 : α
  deriving DecidableEq, Repr, Inhabited

namespace Slots

/-- The same value in every slot. -/
def fill {α : Type} (a : α) : Slots α := ⟨a, a, a, a, a, a, a, a⟩

/-- The vector whose slot `i` holds `f i`. -/
def ofSlot {α : Type} (f : Nat → α) : Slots α := ⟨f 1, f 2, f 3, f 4, f 5, f 6, f 7, f 8⟩

/-- Every slot through `f`. -/
def map {α β : Type} (f : α → β) (v : Slots α) : Slots β :=
  ⟨f v.c1, f v.c2, f v.c3, f v.c4, f v.c5, f v.c6, f v.c7, f v.c8⟩

/-- Slot `i`, for `i` in `1..8`. -/
def get? {α : Type} (v : Slots α) (i : Nat) : Option α :=
  match i with
  | 1 => some v.c1
  | 2 => some v.c2
  | 3 => some v.c3
  | 4 => some v.c4
  | 5 => some v.c5
  | 6 => some v.c6
  | 7 => some v.c7
  | 8 => some v.c8
  | _ => none

/-- `V[i] <- a`; there is no slot outside `1..8` to write. -/
def set {α : Type} (v : Slots α) (i : Nat) (a : α) : Slots α :=
  match i with
  | 1 => { v with c1 := a }
  | 2 => { v with c2 := a }
  | 3 => { v with c3 := a }
  | 4 => { v with c4 := a }
  | 5 => { v with c5 := a }
  | 6 => { v with c6 := a }
  | 7 => { v with c7 := a }
  | 8 => { v with c8 := a }
  | _ => v

/-- The slots in ascending order, slot 1 first: the literal `[V[1], ..., V[8]]` of 00_scope.md R16. -/
def toList {α : Type} (v : Slots α) : List α := [v.c1, v.c2, v.c3, v.c4, v.c5, v.c6, v.c7, v.c8]

/-- The vector a literal of exactly 8 entries stands for; no vector for another length (30_encoding.md R61). -/
def ofList {α : Type} (l : List α) : Option (Slots α) :=
  match l with
  | [a, b, c, d, e, f, g, h] => some ⟨a, b, c, d, e, f, g, h⟩
  | _ => none

end Slots

/-- `fits_W(z)`: `z` is in the range of a signed value of `w` bits (00_scope.md R10). -/
def fits (w : Nat) (z : Int) : Bool := decide (-2 ^ (w - 1) ≤ z) && decide (z ≤ 2 ^ (w - 1) - 1)

/-- `wrap_W(z)`: the `w`-bit value with the residue of `z` modulo `2^w` (00_scope.md R10). -/
def wrap (w : Nat) (z : Int) : BitVec w := BitVec.ofInt w z

end Sys2Proof
end

