-- ==== Sys2Proof/Config.lean ====
section
/-! DEFINITION. What an instance of the engine fixes (its three widths), and the free values: what the spec leaves
unspecified, as constants without a body, so that no proof can see what they are. -/

namespace Sys2Proof

/-- The three width parameters of 00_scope.md R6. Nothing else of the engine is a parameter: the vector always has
8 slots, the divisor is always 8, the op field is always 2 bits. -/
structure Widths where
  /-- `NW`: bits of a nominal value. -/
  nw : Nat
  /-- `CW`: bits of one slot of a modifier vector. -/
  cw : Nat
  /-- `DW`: bits of a damage value. -/
  dw : Nat
  deriving DecidableEq, Repr

namespace Config

/-- `NW` of the reference instantiation (00_scope.md R7). -/
abbrev NW : Nat := 32

/-- `CW` of the reference instantiation (00_scope.md R7). -/
abbrev CW : Nat := 32

/-- `DW` of the reference instantiation (00_scope.md R7). -/
abbrev DW : Nat := 64

/-- The reference instantiation (00_scope.md R7): that of `State.reset` and of the opcode table's words. -/
abbrev ref : Widths := ⟨NW, CW, DW⟩

/-! The data registers after a reset step of a run are unspecified, "any value; a model must not assume zero"
(10_state.md R33, 70_reset_and_hazards.md R135). Each is a free value of its own at each reset step, the argument
`k` counting the reset steps before it (log 5). -/

/-- `DMG` after the reset step that `k` reset steps came before. -/
opaque resetDmg (w : Widths) (k : Nat) : BitVec w.dw

/-- `IDX` after the reset step that `k` reset steps came before. -/
opaque resetIdx (k : Nat) : BitVec 4

/-- `REP` after the reset step that `k` reset steps came before. -/
opaque resetRep (w : Widths) (k : Nat) : BitVec w.cw

/-- Slot `i` of `VEC` after the reset step that `k` reset steps came before. -/
opaque resetVecSlot (w : Widths) (k i : Nat) : BitVec w.cw

/-- Slot `i` of `RVEC` after the reset step that `k` reset steps came before. -/
opaque resetRvecSlot (w : Widths) (k i : Nat) : BitVec w.cw

/-! `IDX` only ever holds `1..8` where it is read (10_state.md R27), and the spec says nothing of `VEC[i]` or of a
delta for another `i`. No run from reset reaches these values (log 6). -/

/-- What slot `i` of a vector register reads as for an `i` outside `1..8`. -/
opaque slotOutside {cw : Nat} (v : Slots (BitVec cw)) (i : BitVec 4) : BitVec cw

/-- The delta of damage `d` for an `i` outside `1..8`. -/
opaque deltaOutside {dw : Nat} (d : BitVec dw) (i : BitVec 4) : BitVec dw

end Config

end Sys2Proof
end

