-- ==== Sys2Proof/Syntax.lean ====
section
/-! DEFINITION. The engine's commands: the four instructions of spec/opcode_table.json, the command bundle that
carries one on the ports, and the assembler's lines (30_encoding.md R55, R58, R63, R64). -/

namespace Sys2Proof

/-- The four commands, one constructor per row of the op map (30_encoding.md R58). The two encoder entry points stay
apart although their arithmetic is the same (40_encoder.md R82), and so do the two reducer ones (41_reducer.md R99).
An operand is the integer it stands for, so that one syntax serves the engine at every width; which integers an
operand of a given width admits is `Instr.wellFormed` (R50; log 1). -/
inductive Instr where
  /-- `ENCDB nominal`: Encode Damage-Bonus nominal (40_encoder.md R73). -/
  | encdb (nominal : Int)
  /-- `ENCDR nominal`: Encode Damage-Reduction nominal (40_encoder.md R74). -/
  | encdr (nominal : Int)
  /-- `APPDB damage, vec`: Apply Damage Bonus (41_reducer.md R95). -/
  | appdb (damage : Int) (vec : Slots Int)
  /-- `APPDR damage, vec`: Apply Damage Reduction (41_reducer.md R96). -/
  | appdr (damage : Int) (vec : Slots Int)
  deriving DecidableEq, Repr

/-- The op field of a command (30_encoding.md R58): bit 1 the unit, bit 0 the context. -/
def Instr.op : Instr → BitVec 2
  | .encdb _ => 0b00#2
  | .encdr _ => 0b01#2
  | .appdb _ _ => 0b10#2
  | .appdr _ _ => 0b11#2

/-- The bundle of values on the `cmd_*` ports but `cmd_valid` (30_encoding.md R55, 10_state.md R22); the vector is
packed. Every field has a value whichever op it is; an op ignores some of them. -/
structure Command (w : Widths) where
  op : BitVec 2
  nominal : BitVec w.nw
  damage : BitVec w.dw
  vec : BitVec (8 * w.cw)
  deriving DecidableEq, Repr

/-- An integer as an assembler line writes it (30_encoding.md R63): decimal, or the bit pattern in hexadecimal. -/
inductive Literal where
  | dec (z : Int)
  | hex (bits : Nat)
  deriving DecidableEq, Repr

/-- The damage operand of a line: an integer, or `%dmg`, the damage of the previous response (30_encoding.md R63). -/
inductive DamageArg where
  | lit (z : Literal)
  | prevDmg
  deriving DecidableEq, Repr

/-- The vector operand of a line: a bracketed list, of whatever length was written, or `%vec`, the vector of the
previous response (30_encoding.md R63). -/
inductive VecArg where
  | list (cs : List Literal)
  | prevVec
  deriving DecidableEq, Repr

/-- One line of an assembler listing (30_encoding.md R63), with the two macros of R64. -/
inductive AsmLine where
  | encdb (nominal : Literal)
  | encdr (nominal : Literal)
  | appdb (damage : DamageArg) (vec : VecArg)
  | appdr (damage : DamageArg) (vec : VecArg)
  | moddb (damage : DamageArg) (nominal : Literal)
  | moddr (damage : DamageArg) (nominal : Literal)
  deriving DecidableEq, Repr

end Sys2Proof
end

