-- ==== Sys2Proof/WellFormed.lean ====
section
/-! DEFINITION. What the checks of the spec admit: the constraints on the widths (00_scope.md R6), and the
instructions (30_encoding.md R50, R59, R61) and assembler lines (R63) whose operands fit their widths. -/

namespace Sys2Proof

/-- The constraints of 00_scope.md R6 on the three widths. -/
def Widths.ok (w : Widths) : Bool :=
  decide (4 ≤ w.nw) && decide (2 ≤ w.cw) && decide (w.nw ≤ w.cw + 3) && decide (4 ≤ w.dw)

/-- An instruction of an engine of widths `w`: each operand is in the range of its kind (30_encoding.md R50). All four
ops are legal and so is every bit pattern of every operand (R59); a vector of another length than 8 is not a term
(R61). -/
def Instr.wellFormed (w : Widths) : Instr → Bool
  | .encdb n => fits w.nw n
  | .encdr n => fits w.nw n
  | .appdb d v => fits w.dw d && v.toList.all (fits w.cw)
  | .appdr d v => fits w.dw d && v.toList.all (fits w.cw)

/-- A written integer fits an operand of `w` bits: a decimal as a signed value, a hexadecimal as a bit pattern
(30_encoding.md R63). -/
def Literal.fitsIn (w : Nat) : Literal → Bool
  | .dec z => fits w z
  | .hex b => decide (b < 2 ^ w)

/-- The check of a damage operand. -/
def DamageArg.wellFormed (w : Widths) : DamageArg → Bool
  | .lit z => z.fitsIn w.dw
  | .prevDmg => true

/-- The check of a vector operand: exactly 8 counts, each of which fits (30_encoding.md R61, R63). -/
def VecArg.wellFormed (w : Widths) : VecArg → Bool
  | .list cs => decide (cs.length = 8) && cs.all (Literal.fitsIn w.cw)
  | .prevVec => true

/-- A line that is no assembler error for its own text (30_encoding.md R63). Whether `%vec` and `%dmg` have a
response to stand for depends on the responses, which the assembler is given. -/
def AsmLine.wellFormed (w : Widths) : AsmLine → Bool
  | .encdb n => n.fitsIn w.nw
  | .encdr n => n.fitsIn w.nw
  | .appdb d v => d.wellFormed w && v.wellFormed w
  | .appdr d v => d.wellFormed w && v.wellFormed w
  | .moddb d n => d.wellFormed w && n.fitsIn w.nw
  | .moddr d n => d.wellFormed w && n.fitsIn w.nw

end Sys2Proof
end

