-- ==== Sys2Proof/Decode.lean ====
section
/-! DEFINITION. Packed vectors, command words, the decoder and, after it, the encoder (30_encoding.md R54, R55,
R57, R58). The decoder is total on every number: it refuses, by name, what is wider than a command word. -/

namespace Sys2Proof

/-! ## Packed vectors (30_encoding.md R54) -/

/-- Lane `k` of a packed vector: bits `[k*CW + CW-1 : k*CW]`. -/
def lane {cw : Nat} (packed : BitVec (8 * cw)) (k : Nat) : BitVec cw := packed.extractLsb' (k * cw) cw

/-- The vector on a packed bus: slot `i` is lane `i - 1`. -/
def unpack {cw : Nat} (packed : BitVec (8 * cw)) : Slots (BitVec cw) := Slots.ofSlot fun i => lane packed (i - 1)

/-- One count put into lane `k` of an otherwise zero bus. -/
def inLane {cw : Nat} (c : BitVec cw) (k : Nat) : BitVec (8 * cw) := c.setWidth (8 * cw) <<< (k * cw)

/-- The packed form of a vector: `{ V[8], V[7], V[6], V[5], V[4], V[3], V[2], V[1] }`. -/
def pack {cw : Nat} (v : Slots (BitVec cw)) : BitVec (8 * cw) :=
  inLane v.c8 7 ||| inLane v.c7 6 ||| inLane v.c6 5 ||| inLane v.c5 4 |||
    inLane v.c4 3 ||| inLane v.c3 2 ||| inLane v.c2 1 ||| inLane v.c1 0

/-! ## Command words (30_encoding.md R55) -/

/-- The width of a command word: 354 bits in the reference instantiation. -/
abbrev Widths.commandBits (w : Widths) : Nat := 8 * w.cw + w.dw + w.nw + 2

/-- The command word `{cmd_vec, cmd_damage, cmd_nominal, cmd_op}`. -/
def Command.toWord {w : Widths} (c : Command w) : BitVec w.commandBits := c.vec ++ c.damage ++ c.nominal ++ c.op

/-- The command in the bits of a number: op in bits `1:0`, nominal in `NW+1:2`, damage in `NW+DW+1:NW+2`, vector in
the `8*CW` bits above. -/
def Command.ofNat {w : Widths} (x : Nat) : Command w :=
  { op := BitVec.ofNat 2 x
    nominal := BitVec.ofNat w.nw (x >>> 2)
    damage := BitVec.ofNat w.dw (x >>> (w.nw + 2))
    vec := BitVec.ofNat (8 * w.cw) (x >>> (w.nw + w.dw + 2)) }

/-- The command in a command word. -/
def Command.ofWord {w : Widths} (x : BitVec w.commandBits) : Command w := Command.ofNat x.toNat

/-! ## The decoder (30_encoding.md R55, R58) -/

/-- The instruction a command bundle presents: bit 1 of the op selects the unit and with it the fields used, bit 0
the context. Every bundle presents one (R59); the fields the op ignores are not read. -/
def Command.decode {w : Widths} (c : Command w) : Instr :=
  if c.op.getLsbD 1 then
    if c.op.getLsbD 0 then .appdr c.damage.toInt ((unpack c.vec).map BitVec.toInt)
    else .appdb c.damage.toInt ((unpack c.vec).map BitVec.toInt)
  else
    if c.op.getLsbD 0 then .encdr c.nominal.toInt else .encdb c.nominal.toInt

/-- Why the decoder refuses a number. -/
inductive DecodeRefusal where
  /-- The number has a bit above the command word's last. Raised by `decode` alone; safe: no port carries such a
  number, so the engine never meets it (30_encoding.md R57, log 3). -/
  | widerThanCommandWord
  deriving DecidableEq, Repr

/-- The instruction a number encodes as a command word of an engine of widths `w`. -/
def decode (w : Widths) (x : Nat) : Except DecodeRefusal Instr :=
  if x >>> w.commandBits = 0 then
    .ok (Command.ofNat (w := w) x).decode
  else
    .error .widerThanCommandWord

/-- The instruction the decoder reads, in the reference instantiation, from a row's `nbits` bits `w`, every bit of the
command word above them zero. -/
def decodeTableWord (nbits w : Nat) : Option Instr := (decode Config.ref (w % 2 ^ nbits)).toOption

/-! ## The encoder (30_encoding.md R55, R63) -/

/-- The bundle that presents an instruction to an engine of widths `w`, the fields its op ignores zero. An operand
that does not fit is narrowed; a well-formed instruction has none (log 1). -/
def Instr.command (w : Widths) : Instr → Command w
  | .encdb n => { op := 0b00#2, nominal := wrap w.nw n, damage := 0#w.dw, vec := 0#(8 * w.cw) }
  | .encdr n => { op := 0b01#2, nominal := wrap w.nw n, damage := 0#w.dw, vec := 0#(8 * w.cw) }
  | .appdb d v => { op := 0b10#2, nominal := 0#w.nw, damage := wrap w.dw d, vec := pack (v.map (wrap w.cw)) }
  | .appdr d v => { op := 0b11#2, nominal := 0#w.nw, damage := wrap w.dw d, vec := pack (v.map (wrap w.cw)) }

/-- The command word of an instruction. -/
def encode (w : Widths) (i : Instr) : BitVec w.commandBits := (i.command w).toWord

end Sys2Proof
end

