-- ==== Sys2Proof/Machine/State.lean ====
section
/-! DEFINITION. The state of the machine: the engine's registers (10_state.md R24) and what the host will drive on the
input ports (R22), for an engine of any widths (00_scope.md R6); the reasons a step could stop, of which the engine
has none; the state after reset (R33). -/

namespace Sys2Proof.Machine

/-- The register inventory of 10_state.md R24, at any widths: "Nothing else in the engine holds a value from one step
to the next." -/
structure Regs (w : Widths) where
  /-- `BUSY`: an APPDB or APPDR is in progress. -/
  busy : Bool
  /-- `RSP_VALID`: a response is presented. -/
  rspValid : Bool
  /-- `OPR`: op of the command in progress or last completed (R28). -/
  opr : BitVec 2
  /-- `OVF`: damage overflow seen by the APP* command in progress or last completed (R29). -/
  ovf : Bool
  /-- `DMG`: the running damage value, signed (R25). -/
  dmg : BitVec w.dw
  /-- `VEC[1..8]`: the engine's own copy of the vector being applied (R26). -/
  vec : Slots (BitVec w.cw)
  /-- `RVEC[1..8]`: the vector the last ENC* produced (R26). -/
  rvec : Slots (BitVec w.cw)
  /-- `IDX`: the slot being processed (R27). -/
  idx : BitVec 4
  /-- `REP`: repetitions still to make for slot `IDX`, unsigned (R27). -/
  rep : BitVec w.cw
  deriving DecidableEq, Repr

/-- The values on the input ports in one step (10_state.md R22); `cmd` is the `cmd_*` bundle, read only where
`cmdValid` is set. -/
structure Inputs (w : Widths) where
  rst : Bool
  cmdValid : Bool
  cmd : Command w
  deriving DecidableEq, Repr

/-- The machine: the registers, and three fields that are the model's own and no state of the engine. -/
structure State where
  /-- The widths of this engine instance (00_scope.md R6): configuration, which the spec does not count as state
  (10_state.md R35) and no step changes. It stands here so that one step serves every instance. DESIGN CHOICE, log 1. -/
  widths : Widths
  /-- The registers (10_state.md R24). -/
  regs : Regs widths
  /-- What the host drives on the input ports, step by step: the next step samples the head and consumes it; where
  the list is empty, the host presents nothing. DESIGN CHOICE, log 2. -/
  inputs : List (Inputs widths)
  /-- How many reset steps the run has taken, the argument of the free values of `Config.resetDmg` and its like.
  DESIGN CHOICE, log 5. -/
  resets : Nat
  deriving DecidableEq, Repr

/-- The faults of the engine: none. "There is no stuck state, no fault outcome and no refusal inside the engine"
(42_command_sequencing.md R110, 60_exceptions.md R120, R122; log 8). -/
inductive Fault where
  deriving DecidableEq, Repr

/-- The refusals of the model. -/
inductive Refusal where
  /-- The instruction has no meaning in the model yet. Raised by an arm of `exec` alone, and by none: all four
  instructions have theirs. Safe. -/
  | notModelled (mnemonic : String)
  deriving DecidableEq, Repr

/-- An engine of widths `w` right after reset: `BUSY`, `RSP_VALID`, `OPR` and `OVF` as 10_state.md R33 says. The data registers
`DMG`, `VEC`, `RVEC`, `IDX` and `REP` have no reset value in the spec ("any value; a model must not assume zero"); the
zeros here are a DESIGN CHOICE, log 4, on which no statement rests. -/
def State.resetAt (w : Widths) : State where
  widths := w
  regs :=
    { busy := false, rspValid := false, opr := 0b00#2, ovf := false
      dmg := 0#w.dw, vec := Slots.fill 0#w.cw, rvec := Slots.fill 0#w.cw, idx := 0#4, rep := 0#w.cw }
  inputs := []
  resets := 0

/-- The machine right after reset, in the reference instantiation (00_scope.md R7). -/
def State.reset : State := State.resetAt Config.ref

end Sys2Proof.Machine
end

