-- ==== Sys2Proof/Machine/Ops.lean ====
section
/-! DEFINITION. The operations the steps share: magnitudes, reading a slot register, sampling the input ports, the
part of acceptance common to every op, and the reset step. -/

namespace Sys2Proof.Machine

/-- `abs_u_W(v)`: the magnitude as an unsigned value of the same width, defined for the most negative value too
(00_scope.md R11). -/
def absU {n : Nat} (v : BitVec n) : BitVec n := if v.msb then ~~~v + 1#n else v

/-- `VEC[i]`, `RVEC[i]`: slot register `i`, for `i` in `1..8` (00_scope.md R9). For another `i`, which no run
reaches, a free value (log 6). -/
def readSlot {cw : Nat} (v : Slots (BitVec cw)) (i : BitVec 4) : BitVec cw :=
  (v.get? i.toNat).getD (Config.slotOutside v i)

/-- The ports of a host that presents nothing: `rst = 0`, `cmd_valid = 0`, the ignored ports zero. -/
def Inputs.idle {w : Widths} : Inputs w :=
  { rst := false, cmdValid := false, cmd := { op := 0#2, nominal := 0#w.nw, damage := 0#w.dw, vec := 0#(8 * w.cw) } }

/-- The ports of a host that presents a command. -/
def Inputs.present {w : Widths} (c : Command w) : Inputs w := { rst := false, cmdValid := true, cmd := c }

/-- The ports the next step samples (log 2). -/
def State.sampled (s : State) : Inputs s.widths := s.inputs.headD Inputs.idle

/-- The state with the sampled ports behind it: what the step's effect starts from. -/
def State.afterSample (s : State) : State := { s with inputs := s.inputs.tail }

/-- Acceptance, the part common to every op (42_command_sequencing.md R111). -/
def acceptCommon {w : Widths} (op : BitVec 2) (r : Regs w) : Regs w :=
  { r with opr := op, ovf := false, rspValid := false }

/-- The registers after the reset step that `k` reset steps came before, whatever they held
(70_reset_and_hazards.md R135, 10_state.md R33): the control bits 0, every data register a free value (log 5). -/
def resetRegs (w : Widths) (k : Nat) : Regs w :=
  { busy := false, rspValid := false, opr := 0b00#2, ovf := false
    dmg := Config.resetDmg w k
    vec := Slots.ofSlot (Config.resetVecSlot w k)
    rvec := Slots.ofSlot (Config.resetRvecSlot w k)
    idx := Config.resetIdx k
    rep := Config.resetRep w k }

/-- The reset step (70_reset_and_hazards.md R135). -/
def resetStep (s : State) : State := { s with regs := resetRegs s.widths s.resets, resets := s.resets + 1 }

end Sys2Proof.Machine
end

