-- ==== Sys2Proof/Machine/Operands.lean ====
section
/-! DEFINITION. What the two units take from their operands: the parts of a nominal (40_encoder.md R72), and the
repetitions and the direction of a count (41_reducer.md R89, R94). -/

namespace Sys2Proof.Machine

/-- The quotient part of a nominal's magnitude, `lsr(mag, 3)` (40_encoder.md R72). -/
def wholePart {nw : Nat} (n : BitVec nw) : BitVec nw := absU n >>> 3

/-- The remainder of a nominal's magnitude, `mag[2:0]` (40_encoder.md R72). -/
def remainderPart {nw : Nat} (n : BitVec nw) : BitVec 3 := (absU n).extractLsb' 0 3

/-- How many repetitions a count asks for, in the width of `REP` (41_reducer.md R94, 10_state.md R27). -/
def repetitions {cw : Nat} (c : BitVec cw) : BitVec cw := absU c

/-- Whether a repetition of a count raises the damage: `up = (c[CW-1] = ctx)`, `ctx` being `OPR[0]`
(41_reducer.md R89). -/
def raises {cw : Nat} (ctx : Bool) (c : BitVec cw) : Bool := c.msb == ctx

/-- The context bit of an op: 0 Damage Bonus, 1 Damage Reduction (30_encoding.md R58, 10_state.md R28). -/
def contextBit (op : BitVec 2) : Bool := op.getLsbD 0

/-- The unit bit of an op: 0 encoder, 1 reducer (30_encoding.md R58). -/
def unitBit (op : BitVec 2) : Bool := op.getLsbD 1

end Sys2Proof.Machine
end

