-- ==== Sys2Proof/Machine/Encoder.lean ====
section
/-! DEFINITION. The encoder family: `acds_encode` (40_encoder.md R72), the acceptance of an ENC* command
(42_command_sequencing.md R111, R112) and the two instructions (R73, R74). -/

namespace Sys2Proof.Machine

/-- `acds_encode(N)` (40_encoder.md R72), on the magnitude (R83): the quotient by 8 goes, with the sign of the
nominal, into slot 8, and a count of `+1` or `-1` into the slot the remainder names. -/
def acdsEncode {nw cw : Nat} (n : BitVec nw) : Slots (BitVec cw) :=
  let whole := wholePart n
  let remainder := remainderPart n
  let zeroed : Slots (BitVec cw) := Slots.fill 0#cw
  let withWhole :=
    if whole ≠ 0#nw then
      zeroed.set 8 (if n.msb then wrap cw (-(whole.toNat : Int)) else wrap cw (whole.toNat : Int))
    else zeroed
  if remainder ≠ 0#3 then
    withWhole.set remainder.toNat (if n.msb then wrap cw (-1) else 1#cw)
  else withWhole

/-- Acceptance of an ENC* command: accepted and completed in one step (42_command_sequencing.md R111, R112). -/
def acceptEnc {w : Widths} (op : BitVec 2) (nominal : BitVec w.nw) (r : Regs w) : Regs w :=
  { acceptCommon op r with rvec := acdsEncode nominal, rspValid := true }

/-- `ENCDB` (40_encoder.md R73), at the widths of the engine. -/
def execEncdb (nominal : Int) (s : State) : Host.Outcome State Fault Refusal :=
  .next { s with regs := acceptEnc 0b00#2 (wrap s.widths.nw nominal) s.regs }

/-- `ENCDR` (40_encoder.md R74), at the widths of the engine. -/
def execEncdr (nominal : Int) (s : State) : Host.Outcome State Fault Refusal :=
  .next { s with regs := acceptEnc 0b01#2 (wrap s.widths.nw nominal) s.regs }

end Sys2Proof.Machine
end

