-- ==== Sys2Proof/Machine/Flags.lean ====
section
/-! DEFINITION. The computation of `OVF` and the status view (10_state.md R29, R30; 41_reducer.md R90). -/

namespace Sys2Proof.Machine

/-- The overflow bit of one repetition: set when the exact sum does not fit `DW` signed bits (41_reducer.md R90). -/
def overflows (dw : Nat) (sum : Int) : Bool := !fits dw sum

/-- `STATUS`, the 5-bit view `{OVF, OPR[1:0], RSP_VALID, BUSY}` (10_state.md R30). -/
def status {w : Widths} (r : Regs w) : BitVec 5 :=
  BitVec.ofBool r.ovf ++ r.opr ++ BitVec.ofBool r.rspValid ++ BitVec.ofBool r.busy

end Sys2Proof.Machine
end

