-- ==== Sys2Proof/Machine/Reducer.lean ====
section
/-! DEFINITION. The reducer family: the engine's delta, step and fold (41_reducer.md R88, R90, R94), the acceptance of
an APP* command (42_command_sequencing.md R113), the steps the fold is spread over (R105 to R107, R115) and the two
instructions (R95, R96). -/

namespace Sys2Proof.Machine

/-! ## Delta, step and fold -/

/-- `step_delta(d, i)`: the product in `DW + 3` bits, exact, shifted right by 3 (41_reducer.md R88), for `i` in
`1..8`. For another `i`, which no run reaches, a free value (log 6). -/
def stepDelta {dw : Nat} (d : BitVec dw) (i : BitVec 4) : BitVec dw :=
  if 1 ≤ i.toNat ∧ i.toNat ≤ 8 then
    ((d.signExtend (dw + 3) * i.setWidth (dw + 3)).sshiftRight 3).setWidth dw
  else Config.deltaOutside d i

/-- The exact sum of one repetition, before it is narrowed (41_reducer.md R90). -/
def exactSum {dw : Nat} (d : BitVec dw) (i : BitVec 4) (up : Bool) : Int :=
  if up then d.toInt + (stepDelta d i).toInt else d.toInt - (stepDelta d i).toInt

/-- `step_adjust(d, i, up)`: the wrapped sum and the overflow bit (41_reducer.md R90). -/
def stepAdjust {dw : Nat} (d : BitVec dw) (i : BitVec 4) (up : Bool) : BitVec dw × Bool :=
  (wrap dw (exactSum d i up), overflows dw (exactSum d i up))

/-- One repetition on the running pair of damage and overflow flag (41_reducer.md R94, R106). -/
def adjustOnce {dw : Nat} (i : BitVec 4) (up : Bool) (a : BitVec dw × Bool) : BitVec dw × Bool :=
  ((stepAdjust a.1 i up).1, a.2 || (stepAdjust a.1 i up).2)

/-- All repetitions of slot `i` with count `c`; a count of 0 makes none (41_reducer.md R92, R94). -/
def applySlot {cw dw : Nat} (ctx : Bool) (i : BitVec 4) (c : BitVec cw) (a : BitVec dw × Bool) : BitVec dw × Bool :=
  (adjustOnce i (raises ctx c))^[(repetitions c).toNat] a

/-- The eight slots in ascending order (41_reducer.md R93). -/
def slotNumbers : List (BitVec 4) := [1#4, 2#4, 3#4, 4#4, 5#4, 6#4, 7#4, 8#4]

/-- The slots `is`, one after the other, on the running pair. -/
def applySlots {cw dw : Nat} (ctx : Bool) (v : Slots (BitVec cw)) (is : List (BitVec 4)) (a : BitVec dw × Bool) :
    BitVec dw × Bool :=
  is.foldl (fun a i => applySlot ctx i (readSlot v i) a) a

/-- `acds_apply(ctx, d, V)`: the fold over the eight slots (41_reducer.md R94). -/
def acdsApply {cw dw : Nat} (ctx : Bool) (d : BitVec dw) (v : Slots (BitVec cw)) : BitVec dw × Bool :=
  applySlots ctx v slotNumbers (d, false)

/-! ## Acceptance and the steps of the fold -/

/-- Acceptance of an APP* command (42_command_sequencing.md R111, R113): the operands copied, the position at the
first slot. -/
def acceptApp {w : Widths} (op : BitVec 2) (damage : BitVec w.dw) (v : Slots (BitVec w.cw)) (r : Regs w) : Regs w :=
  { acceptCommon op r with
    dmg := damage, vec := v, idx := 1#4, rep := repetitions v.c1, busy := true }

/-- The repetition step (41_reducer.md R106). -/
def repetitionStep {w : Widths} (r : Regs w) : Regs w :=
  let up := raises (contextBit r.opr) (readSlot r.vec r.idx)
  let adjusted := stepAdjust r.dmg r.idx up
  { r with dmg := adjusted.1, ovf := r.ovf || adjusted.2, rep := r.rep - 1#w.cw }

/-- The slot-advance step (41_reducer.md R107). -/
def slotAdvanceStep {w : Widths} (r : Regs w) : Regs w :=
  { r with idx := r.idx + 1#4, rep := repetitions (readSlot r.vec (r.idx + 1#4)) }

/-- The completion step (42_command_sequencing.md R115). -/
def completionStep {w : Widths} (r : Regs w) : Regs w := { r with busy := false, rspValid := true }

/-- `APPDB` (41_reducer.md R95): its acceptance step. The fold follows in the engine's next steps (R104 to R108,
log 9). -/
def execAppdb (damage : Int) (vec : Slots Int) (s : State) : Host.Outcome State Fault Refusal :=
  .next { s with regs := acceptApp 0b10#2 (wrap s.widths.dw damage) (vec.map (wrap s.widths.cw)) s.regs }

/-- `APPDR` (41_reducer.md R96): its acceptance step, as `APPDB` with the other polarity. -/
def execAppdr (damage : Int) (vec : Slots Int) (s : State) : Host.Outcome State Fault Refusal :=
  .next { s with regs := acceptApp 0b11#2 (wrap s.widths.dw damage) (vec.map (wrap s.widths.cw)) s.regs }

end Sys2Proof.Machine
end

