-- ==== Sys2Proof/Machine/Dispatch.lean ====
section
/-! DEFINITION. The meaning of each instruction, one arm per constructor. -/

namespace Sys2Proof.Machine

/-- What the acceptance of an instruction does (42_command_sequencing.md R111 to R113). -/
def exec (i : Instr) (s : State) : Host.Outcome State Fault Refusal :=
  match i with
  | .encdb nominal => Sys2Proof.Machine.execEncdb nominal s
  | .encdr nominal => Sys2Proof.Machine.execEncdr nominal s
  | .appdb damage vec => Sys2Proof.Machine.execAppdb damage vec s
  | .appdr damage vec => Sys2Proof.Machine.execAppdr damage vec s

end Sys2Proof.Machine
end

