-- ==== Sys2Proof/Machine/Sequencer.lean ====
section
/-! DEFINITION. Which of the six kinds of step the engine takes (42_command_sequencing.md R110, 41_reducer.md R105). -/

namespace Sys2Proof.Machine

/-- The six kinds of step (42_command_sequencing.md R110). -/
inductive StepKind where
  | reset
  | repetition
  | slotAdvance
  | completion
  | acceptance
  | idle
  deriving DecidableEq, Repr

/-- The kind of a reducer step, taken while `BUSY = 1` (41_reducer.md R105). -/
def reducerKind {w : Widths} (r : Regs w) : StepKind :=
  if r.rep ≠ 0#w.cw then .repetition else if r.idx ≠ 8#4 then .slotAdvance else .completion

/-- The kind of the step, by the first line of 42_command_sequencing.md R110 that applies. -/
def stepKind {w : Widths} (inp : Inputs w) (r : Regs w) : StepKind :=
  if inp.rst then .reset
  else if r.busy then reducerKind r
  else if inp.cmdValid then .acceptance
  else .idle

/-- The register effect of a reducer step (41_reducer.md R105). -/
def reducerStep {w : Widths} (r : Regs w) : Regs w :=
  if r.rep ≠ 0#w.cw then repetitionStep r else if r.idx ≠ 8#4 then slotAdvanceStep r else completionStep r

end Sys2Proof.Machine
end

