-- ==== Sys2Proof/Machine/Step.lean ====
section
/-! DEFINITION. The engine's step (42_command_sequencing.md R110), and where a test puts the instruction it runs
next. -/

namespace Sys2Proof.Machine

/-- One clock edge (42_command_sequencing.md R110): the sampled ports and the registers choose the kind of step; an
acceptance step runs the instruction the command ports present. -/
def step (s : State) : Host.Outcome State Fault Refusal :=
  match stepKind s.sampled s.regs with
  | .reset => .next (resetStep s.afterSample)
  | .repetition => .next { s.afterSample with regs := repetitionStep s.regs }
  | .slotAdvance => .next { s.afterSample with regs := slotAdvanceStep s.regs }
  | .completion => .next { s.afterSample with regs := completionStep s.regs }
  | .acceptance => exec s.sampled.cmd.decode s.afterSample
  | .idle => .next s.afterSample

/-- The state in which the host presents the command word `w` in the very next step, and the engine can accept it:
`rst = 0`, `cmd_valid = 1`, the word on the command ports, `BUSY = 0` (42_command_sequencing.md R111). Log 3. -/
def State.withFetchWord (s : State) (nbits w : Nat) : State :=
  { s with
    regs := { s.regs with busy := false }
    inputs := Inputs.present (Command.ofNat (w % 2 ^ nbits)) :: s.inputs }

end Sys2Proof.Machine
end

