-- ==== Sys2Proof/Machine/Ports.lean ====
section
/-! DEFINITION. What the host can see: the response view (10_state.md R31), the output ports (R23) and the response
word (30_encoding.md R56). -/

namespace Sys2Proof

/-! The response pins outside the response view carry any value (10_state.md R31, 93_implementation_defined.md U3):
free values, which like every output are functions of the registers (R23). Log 7. -/

/-- `rsp_op` where the view does not define it. -/
opaque Config.pinOp {w : Widths} (r : Machine.Regs w) : BitVec 2

/-- `rsp_vec` where the view does not define it. -/
opaque Config.pinVec {w : Widths} (r : Machine.Regs w) : BitVec (8 * w.cw)

/-- `rsp_damage` where the view does not define it. -/
opaque Config.pinDamage {w : Widths} (r : Machine.Regs w) : BitVec w.dw

/-- `rsp_ovf` where the view does not define it. -/
opaque Config.pinOvf {w : Widths} (r : Machine.Regs w) : Bool

namespace Machine

/-- The response view: "the architecturally defined observation of the engine after a step" (10_state.md R31). The
slots and the damage are the signed integers that the registers stand for (00_scope.md R8). -/
inductive Response where
  | none
  | vector (op : BitVec 2) (vec : Slots Int)
  | damage (op : BitVec 2) (dmg : Int) (ovf : Bool)
  deriving DecidableEq, Repr

/-- The response of the registers (10_state.md R31). -/
def response {w : Widths} (r : Regs w) : Response :=
  if r.rspValid = false then .none
  else if unitBit r.opr = false then .vector r.opr (r.rvec.map BitVec.toInt)
  else .damage r.opr r.dmg.toInt r.ovf

/-- `cmd_ready = ~BUSY` (10_state.md R23). -/
def cmdReady {w : Widths} (r : Regs w) : Bool := !r.busy

/-- The output ports (10_state.md R23). -/
structure Outputs (w : Widths) where
  cmdReady : Bool
  rspValid : Bool
  rspOp : BitVec 2
  rspVec : BitVec (8 * w.cw)
  rspDamage : BitVec w.dw
  rspOvf : Bool
  deriving DecidableEq, Repr

/-- What the output ports carry: the registers of 10_state.md R23 where the response view defines the port, a free
value elsewhere (R31). -/
def outputs {w : Widths} (r : Regs w) : Outputs w where
  cmdReady := cmdReady r
  rspValid := r.rspValid
  rspOp := if r.rspValid then r.opr else Config.pinOp r
  rspVec := if r.rspValid && !unitBit r.opr then pack r.rvec else Config.pinVec r
  rspDamage := if r.rspValid && unitBit r.opr then r.dmg else Config.pinDamage r
  rspOvf := if r.rspValid && unitBit r.opr then r.ovf else Config.pinOvf r

/-- The response word `{rsp_vec, rsp_damage, rsp_ovf, rsp_op, rsp_valid}` (30_encoding.md R56). -/
def responseWord {w : Widths} (o : Outputs w) : BitVec (8 * w.cw + w.dw + 1 + 2 + 1) :=
  o.rspVec ++ o.rspDamage ++ BitVec.ofBool o.rspOvf ++ o.rspOp ++ BitVec.ofBool o.rspValid

end Machine

end Sys2Proof
end

