-- ==== Sys2Proof/Machine/Assembler.lean ====
section
/-! DEFINITION. The assembler of 30_encoding.md R63 and the host macros of R64: text to lines, lines to instructions.
The engine's step calls none of it (92_eei_decisions.md D17). -/

namespace Sys2Proof.Machine

/-- Why the assembler refuses a line (30_encoding.md R61, R63). These are errors of the host's tool, raised by the
definitions of this file alone; safe: a refused line presents nothing to the engine. -/
inductive AsmError where
  /-- An operand does not fit its width. -/
  | operandTooWide
  /-- A vector list whose length is not 8. -/
  | wrongVectorLength (length : Nat)
  /-- `%vec` where the previous response is no vector (the model's choice, log 10). -/
  | noVectorToForward
  /-- `%dmg` where the previous response is no damage (the model's choice, log 10). -/
  | noDamageToForward
  /-- A macro where a single command is asked for (the model's choice, log 10). -/
  | macroNotExpanded
  /-- A text that is no line of the language. -/
  | notALine
  deriving DecidableEq, Repr

/-! ## Lines to instructions -/

/-- The integer a written one stands for in an operand of `n` bits: a decimal is itself, a hexadecimal the bit pattern,
two's complement at that width (30_encoding.md R63). -/
def literalValue (n : Nat) : Literal → Int
  | .dec z => z
  | .hex b => (BitVec.ofNat n b).toInt

/-- A written operand of `n` bits; one that does not fit is an error (30_encoding.md R63). -/
def literalOperand (n : Nat) (z : Literal) : Except AsmError Int :=
  if z.fitsIn n then .ok (literalValue n z) else .error .operandTooWide

/-- A damage operand, `prev` being the previous response (30_encoding.md R63). DESIGN CHOICE, log 10: after a response
of another kind `%dmg` has no value. Listing P3 of 95_test_vectors.md reads it otherwise: after `ENCDR 7` it forwards
the damage that the host latched from the response before. -/
def damageOperand (w : Widths) (prev : Response) : DamageArg → Except AsmError Int
  | .lit z => literalOperand w.dw z
  | .prevDmg =>
    match prev with
    | .damage _ d _ => .ok d
    | _ => .error .noDamageToForward

/-- The counts of a written list, slot 1 first; exactly 8 (30_encoding.md R61, R63). -/
def listOperand (w : Widths) (cs : List Literal) : Except AsmError (Slots Int) := do
  let counts ← cs.mapM (literalOperand w.cw)
  match Slots.ofList counts with
  | some v => .ok v
  | none => .error (.wrongVectorLength counts.length)

/-- A vector operand, `prev` being the previous response (30_encoding.md R63). DESIGN CHOICE, log 10: after a response
of another kind `%vec` has no value. -/
def vecOperand (w : Widths) (prev : Response) : VecArg → Except AsmError (Slots Int)
  | .list cs => listOperand w cs
  | .prevVec =>
    match prev with
    | .vector _ v => .ok v
    | _ => .error .noVectorToForward

/-- The commands a line stands for: itself, or the two of a macro (30_encoding.md R64). -/
def expandLine : AsmLine → List AsmLine
  | .moddb d n => [.encdb n, .appdb d .prevVec]
  | .moddr d n => [.encdr n, .appdr d .prevVec]
  | l => [l]

/-- The instruction of a line that is one command, for an engine of widths `w` (30_encoding.md R63). That a macro,
which is two commands, is refused here is the model's choice (log 10): `expandLine` comes first. -/
def assembleLine (w : Widths) (prev : Response) : AsmLine → Except AsmError Instr
  | .encdb n => return .encdb (← literalOperand w.nw n)
  | .encdr n => return .encdr (← literalOperand w.nw n)
  | .appdb d v => return .appdb (← damageOperand w prev d) (← vecOperand w prev v)
  | .appdr d v => return .appdr (← damageOperand w prev d) (← vecOperand w prev v)
  | .moddb _ _ => .error .macroNotExpanded
  | .moddr _ _ => .error .macroNotExpanded

/-! ## Text to lines (30_encoding.md R63; the layout it leaves open is log 10) -/

/-- The pieces of a line. -/
inductive Token where
  | word (cs : List Char)
  | comma
  | openBracket
  | closeBracket
  deriving DecidableEq, Repr

/-- A word read so far, in reverse, put before what follows it. -/
def closeWord (acc : List Char) (rest : List Token) : List Token :=
  if acc = [] then rest else .word acc.reverse :: rest

/-- The tokens of a line; a comment runs from `;` to the end of the line. -/
def tokens (acc : List Char) : List Char → List Token
  | [] => closeWord acc []
  | c :: cs =>
    if c = ';' then closeWord acc []
    else if c = ',' then closeWord acc (.comma :: tokens [] cs)
    else if c = '[' then closeWord acc (.openBracket :: tokens [] cs)
    else if c = ']' then closeWord acc (.closeBracket :: tokens [] cs)
    else if c = ' ' ∨ c = '\t' then closeWord acc (tokens [] cs)
    else tokens (c :: acc) cs

/-- The value of one digit in base 10 or 16. -/
def digitValue (base : Nat) (c : Char) : Option Nat :=
  let n := c.toNat
  let v :=
    if 48 ≤ n ∧ n ≤ 57 then some (n - 48)
    else if 65 ≤ n ∧ n ≤ 70 then some (n - 55)
    else if 97 ≤ n ∧ n ≤ 102 then some (n - 87)
    else none
  v.bind fun v => if v < base then some v else none

/-- The digits `cs` after a number already read. -/
def readDigits (base : Nat) (acc : Nat) : List Char → Option Nat
  | [] => some acc
  | c :: cs => (digitValue base c).bind fun v => readDigits base (acc * base + v) cs

/-- A number of at least one digit. -/
def readNumber (base : Nat) (cs : List Char) : Option Nat := if cs = [] then none else readDigits base 0 cs

/-- An integer: decimal with an optional leading `-`, or hexadecimal with `0x`. -/
def readLiteral (cs : List Char) : Option Literal :=
  match cs with
  | '0' :: 'x' :: ds => (readNumber 16 ds).map Literal.hex
  | '-' :: ds => (readNumber 10 ds).map fun n => Literal.dec (-(n : Int))
  | ds => (readNumber 10 ds).map fun n => Literal.dec (n : Int)

/-- A damage operand: an integer or `%dmg`. -/
def readDamage (cs : List Char) : Option DamageArg :=
  if cs = ['%', 'd', 'm', 'g'] then some .prevDmg else (readLiteral cs).map .lit

/-- The rest of a bracketed list, after its opening bracket. -/
def readCounts : List Token → Option (List Literal)
  | [.word cs, .closeBracket] => (readLiteral cs).map fun c => [c]
  | .word cs :: .comma :: ts => (readLiteral cs).bind fun c => (readCounts ts).map (c :: ·)
  | _ => none

/-- A vector operand: a bracketed list or `%vec`. -/
def readVec : List Token → Option VecArg
  | [.word cs] => if cs = ['%', 'v', 'e', 'c'] then some .prevVec else none
  | .openBracket :: ts => (readCounts ts).map .list
  | _ => none

/-- A line's operand of the form `<nominal>`. -/
def readNominal : List Token → Option Literal
  | [.word cs] => readLiteral cs
  | _ => none

/-- The operands `<damage>, <vector>`. -/
def readDamageVec : List Token → Option (DamageArg × VecArg)
  | .word cs :: .comma :: ts => (readDamage cs).bind fun d => (readVec ts).map fun v => (d, v)
  | _ => none

/-- The operands `<damage>, <nominal>` of a macro. -/
def readDamageNominal : List Token → Option (DamageArg × Literal)
  | .word cs :: .comma :: ts => (readDamage cs).bind fun d => (readNominal ts).map fun n => (d, n)
  | _ => none

/-- The line a mnemonic and its operands write, mnemonics in capitals. -/
def readCommand (mnemonic : List Char) (ts : List Token) : Option AsmLine :=
  if mnemonic = ['E', 'N', 'C', 'D', 'B'] then (readNominal ts).map .encdb
  else if mnemonic = ['E', 'N', 'C', 'D', 'R'] then (readNominal ts).map .encdr
  else if mnemonic = ['A', 'P', 'P', 'D', 'B'] then (readDamageVec ts).map fun o => .appdb o.1 o.2
  else if mnemonic = ['A', 'P', 'P', 'D', 'R'] then (readDamageVec ts).map fun o => .appdr o.1 o.2
  else if mnemonic = ['M', 'O', 'D', 'D', 'B'] then (readDamageNominal ts).map fun o => .moddb o.1 o.2
  else if mnemonic = ['M', 'O', 'D', 'D', 'R'] then (readDamageNominal ts).map fun o => .moddr o.1 o.2
  else none

/-- The line of a text; none for a line that holds only white space or a comment. -/
def readLine (text : List Char) : Except AsmError (Option AsmLine) :=
  match tokens [] text with
  | [] => .ok none
  | .word m :: ts =>
    match readCommand m ts with
    | some l => .ok (some l)
    | none => .error .notALine
  | _ => .error .notALine

end Sys2Proof.Machine
end

