-- ==== Sys2Proof/Machine/HostDriver.lean ====
section
/-! DEFINITION. A host that issues commands one at a time and keeps the duties of 60_exceptions.md R134: it counts a
command as issued only in a step with `cmd_ready = 1` and `rst = 0`, presents it again otherwise, gives it up when its
patience ends, and reads a response before it lets the next command be accepted. It sees the output ports alone. The
engine's step calls none of it. -/

namespace Sys2Proof.Machine

/-- Why the host's program ends early. -/
inductive HostError where
  /-- A line of the listing is an assembler error. -/
  | assembler (e : AsmError)
  /-- The engine was not ready for as long as the host presented the command, so it was given up. Raised by this file
  alone; safe: the run stops. -/
  | notAccepted
  /-- No response came for as long as the host waited. Raised by this file alone; safe: the run stops. -/
  | noResponse
  deriving DecidableEq, Repr

/-- The host waits, presenting nothing, until the output ports show what it waits for, for at most `patience` steps. -/
def waitFor (seen : {w : Widths} → Outputs w → Bool) : Nat → State → Option State
  | 0, s => if seen (outputs s.regs) then some s else none
  | patience + 1, s =>
    if seen (outputs s.regs) then some s
    else
      match step { s with inputs := [] } with
      | .next t => waitFor seen patience t
      | .fault _ => none
      | .refused _ => none

/-- The host presents an instruction, with `rst = 0`, in up to `patience` steps: the state after the first of them in
which it saw `cmd_ready = 1`, the step that accepts it; none where there was no such step and the host gives up
(60_exceptions.md R134, 70_reset_and_hazards.md R140). -/
def present (i : Instr) : Nat → State → Option State
  | 0, _ => none
  | patience + 1, s =>
    match step { s with inputs := [Inputs.present (i.command s.widths)] } with
    | .next t => if (outputs s.regs).cmdReady then some t else present i patience t
    | .fault _ => none
    | .refused _ => none

/-- Present an instruction until it is accepted, then nothing until its response is there (60_exceptions.md R134). -/
def issue (patience : Nat) (i : Instr) (s : State) : Except HostError State :=
  match present i patience s with
  | none => .error .notAccepted
  | some t =>
    match waitFor (fun o => o.rspValid) patience t with
    | none => .error .noResponse
    | some u => .ok u

/-- Issue the commands one after the other, each response read before the next command is presented
(70_reset_and_hazards.md R141): the outcomes in order, with the last state. A line is assembled once the engine is
ready, when the response it may forward is there. -/
def issueLines (patience : Nat) : List AsmLine → State → Except HostError (List Response × State)
  | [], s => .ok ([], s)
  | l :: ls, s =>
    match waitFor (fun o => o.cmdReady) patience s with
    | none => .error .notAccepted
    | some r =>
      match assembleLine r.widths (response r.regs) l with
      | .error e => .error (.assembler e)
      | .ok i =>
        match issue patience i r with
        | .error e => .error e
        | .ok t =>
          match issueLines patience ls t with
          | .error e => .error e
          | .ok (rs, u) => .ok (response t.regs :: rs, u)

/-- Run a listing, its macros expanded (30_encoding.md R64). -/
def runListing (patience : Nat) (ls : List AsmLine) (s : State) : Except HostError (List Response × State) :=
  issueLines patience (ls.flatMap expandLine) s

end Sys2Proof.Machine
end

