-- ==== Sys2Proof/Machine/Reference.lean ====
section
/-! DEFINITION. The source's functions over the unbounded integers (00_scope.md R16), transcribed: `ENC_Z`
(40_encoder.md R71), `DELTA_Z`, `UP_Z`, `DOWN_Z` (41_reducer.md R86), `SLOT_Z`, `APPLY_Z` (R91). The engine's functions
are stated against them; no step calls them. -/

namespace Sys2Proof.Machine

/-- The context of a vector (41_reducer.md R89, R91). -/
inductive Context where
  /-- Damage Bonus. -/
  | db
  /-- Damage Reduction. -/
  | dr
  deriving DecidableEq, Repr

/-- The context an op's bit 0 selects (30_encoding.md R58). -/
def contextOf (bit : Bool) : Context := if bit then .dr else .db

/-- `fdiv(a, b)`: floor division (00_scope.md R12). -/
def fdiv (a b : Int) : Int := Int.fdiv a b

/-- `ENC_Z(N)` (40_encoder.md R71). -/
def encZ (n : Int) : Slots Int :=
  let whole : Int := fdiv n.natAbs 8
  let remainder : Nat := n.natAbs % 8
  let withWhole : Slots Int :=
    if whole ≠ 0 then (Slots.fill 0).set 8 (if n > 0 then whole else -whole) else Slots.fill 0
  if remainder ≠ 0 then withWhole.set remainder (if n > 0 then 1 else -1) else withWhole

/-- `DELTA_Z(d, i)` (41_reducer.md R86). -/
def deltaZ (d : Int) (i : Nat) : Int := fdiv (d * i) 8

/-- `UP_Z(d, i)`: raises the damage (41_reducer.md R86, R87). -/
def upZ (d : Int) (i : Nat) : Int := d + deltaZ d i

/-- `DOWN_Z(d, i)`: lowers the damage (41_reducer.md R86, R87). -/
def downZ (d : Int) (i : Nat) : Int := d - deltaZ d i

/-- Whether a count raises, by its sign and the context (41_reducer.md R91). -/
def raisesZ (ctx : Context) (c : Int) : Bool :=
  match ctx with
  | .db => decide (c > 0)
  | .dr => decide (c < 0)

/-- One repetition of slot `i` in a direction. -/
def adjustZ (i : Nat) (up : Bool) (d : Int) : Int := if up then upZ d i else downZ d i

/-- `SLOT_Z(ctx, d, i, c)` (41_reducer.md R91). -/
def slotZ (ctx : Context) (d : Int) (i : Nat) (c : Int) : Int :=
  if c = 0 then d else (adjustZ i (raisesZ ctx c))^[c.natAbs] d

/-- `APPLY_Z(ctx, d, V)` (41_reducer.md R91). -/
def applyZ (ctx : Context) (d : Int) (v : Slots Int) : Int :=
  [(1, v.c1), (2, v.c2), (3, v.c3), (4, v.c4), (5, v.c5), (6, v.c6), (7, v.c7), (8, v.c8)].foldl
    (fun d ic => slotZ ctx d ic.1 ic.2) d

/-- The repetitions of a vector in order, each its slot and its direction. -/
def repetitionsZ (ctx : Context) (v : Slots Int) : List (Nat × Bool) :=
  [(1, v.c1), (2, v.c2), (3, v.c3), (4, v.c4), (5, v.c5), (6, v.c6), (7, v.c7), (8, v.c8)].flatMap
    fun ic => List.replicate ic.2.natAbs (ic.1, raisesZ ctx ic.2)

/-- The damage values after each of the repetitions, in order. -/
def pathOfZ (d : Int) : List (Nat × Bool) → List Int
  | [] => []
  | p :: ps => adjustZ p.1 p.2 d :: pathOfZ (adjustZ p.1 p.2 d) ps

/-- The sequence `z1, z2, ..., zn` of 41_reducer.md R97: the damage values `APPLY_Z` goes through, one per
repetition. -/
def pathZ (ctx : Context) (d : Int) (v : Slots Int) : List Int := pathOfZ d (repetitionsZ ctx v)

end Sys2Proof.Machine
end

