-- ==== Sys2Proof/Safety.lean ====
section
/-! DEFINITION. What counts as a good state and a good run: the register invariants (10_state.md R27, R30;
41_reducer.md R104), the fold in progress, and the observation of a run with the contract it is held to
(42_command_sequencing.md R118, R119). -/

namespace Sys2Proof.Machine

/-! ## Invariants -/

/-- The register values a run can reach: while a command is in progress it is an APP*, no response is presented,
`IDX` is a slot and `REP` at most that slot's repetitions (10_state.md R27, R30; 41_reducer.md R104); and `OVF` is set
only under an APP* op (R29). -/
abbrev Regs.legal {w : Widths} (r : Regs w) : Prop :=
  (r.busy = true → r.rspValid = false ∧ unitBit r.opr = true ∧ 1 ≤ r.idx.toNat ∧ r.idx.toNat ≤ 8 ∧
    r.rep.toNat ≤ (repetitions (readSlot r.vec r.idx)).toNat) ∧
  (r.ovf = true → unitBit r.opr = true)

/-- A state of an engine that R6 admits, with legal registers. -/
abbrev State.legal (s : State) : Prop := s.widths.ok = true ∧ s.regs.legal

/-- What the fold has computed after the slots before `idx` and `made` repetitions of slot `idx` (41_reducer.md
R104). -/
def partialFold {cw dw : Nat} (ctx : Bool) (v : Slots (BitVec cw)) (d : BitVec dw) (idx : BitVec 4) (made : Nat) :
    BitVec dw × Bool :=
  (adjustOnce idx (raises ctx (readSlot v idx)))^[made]
    (applySlots ctx v (slotNumbers.take (idx.toNat - 1)) (d, false))

/-- The invariant of 41_reducer.md R104 for a command accepted with damage `d`: the position is in range, and `DMG`
and `OVF` are what the fold has computed up to it. -/
abbrev FoldAt {w : Widths} (d : BitVec w.dw) (r : Regs w) : Prop :=
  1 ≤ r.idx.toNat ∧ r.idx.toNat ≤ 8 ∧ r.rep.toNat ≤ (repetitions (readSlot r.vec r.idx)).toNat ∧
    (r.dmg, r.ovf) = partialFold (contextBit r.opr) r.vec d r.idx
      ((repetitions (readSlot r.vec r.idx)).toNat - r.rep.toNat)

/-- `k` reducer steps (41_reducer.md R105), as long as the engine stays busy. -/
def reduceFor {w : Widths} : Nat → Regs w → Regs w
  | 0, r => r
  | k + 1, r => if r.busy then reduceFor k (reducerStep r) else r

/-! ## Runs and what is observed of them -/

/-- The state after `k` steps, if every one of them is taken. -/
def stateAfter (k : Nat) (s : State) : Option State :=
  match core.run k s with
  | .next t => some t
  | .fault _ => none
  | .refused _ => none

/-- The host asserts no reset in the steps it has planned. -/
abbrev NoReset (s : State) : Prop := ∀ inp ∈ s.inputs, inp.rst = false

/-- The outcome that the step from `s` makes observable, if it ends a command instance: the acceptance of an ENC*, or
the completion of an APP* (42_command_sequencing.md R118). -/
def outcome (s : State) : Option Response :=
  match step s with
  | .next t =>
    match stepKind s.sampled s.regs with
    | .acceptance => if unitBit s.sampled.cmd.op then none else some (response t.regs)
    | .completion => some (response t.regs)
    | _ => none
  | .fault _ => none
  | .refused _ => none

/-- The observation of a run: the outcomes, in acceptance order (42_command_sequencing.md R118). -/
def observation : Nat → State → List Response
  | 0, _ => []
  | k + 1, s =>
    match step s with
    | .next t => (outcome s).toList ++ observation k t
    | .fault _ => []
    | .refused _ => []

/-- What the host sees after each step: the response view and `cmd_ready` (10_state.md R31). -/
def views : Nat → State → List (Response × Bool)
  | 0, _ => []
  | k + 1, s =>
    match step s with
    | .next t => (response t.regs, cmdReady t.regs) :: views k t
    | .fault _ => []
    | .refused _ => []

/-- The outcome the contract gives a command, from its own operands alone (42_command_sequencing.md R119): the
source's encoding, or the engine's fold. -/
def contractOutcome {w : Widths} (c : Command w) : Response :=
  if unitBit c.op then
    let folded := acdsApply (contextBit c.op) c.damage (unpack c.vec)
    .damage c.op folded.1.toInt folded.2
  else .vector c.op (encZ c.nominal.toInt)

/-- The outcomes the contract demands of a run: those of the commands the engine accepted, in order, less the ones a
reset cut short (42_command_sequencing.md R118, R119). `pending` is the outcome due for the command in progress. -/
def contractRun : Nat → Option Response → State → List Response
  | 0, _, _ => []
  | k + 1, pending, s =>
    match step s with
    | .next t =>
      match stepKind s.sampled s.regs with
      | .reset => contractRun k none t
      | .acceptance =>
        if unitBit s.sampled.cmd.op then contractRun k (some (contractOutcome s.sampled.cmd)) t
        else contractOutcome s.sampled.cmd :: contractRun k none t
      | .completion => pending.toList ++ contractRun k none t
      | .repetition => contractRun k pending t
      | .slotAdvance => contractRun k pending t
      | .idle => contractRun k pending t
    | .fault _ => []
    | .refused _ => []

end Sys2Proof.Machine
end

