-- ==== Sys2Proof/Certificates/Slice0/Obligations.lean ====
section
/-! DEFINITION. The statements for the provers: what the spec's numbered rules say the engine does. `ctx` is an op's bit
0, `w.ok` the width constraints of 00_scope.md R6, which the widths of every engine meet. No statement rests on a value
the model chose for reset, and none names a number of steps. -/

open Sys2Proof Sys2Proof.Machine

/-! ## Values and words -/

/-- 00_scope.md R11: the magnitude, also of the most negative value, and as bits. -/
def Obligations.MagnitudeIsAbsoluteValue : Prop :=
  ∀ (n : Nat) (v : BitVec n), 0 < n →
    ((absU v).toNat : Int) = |v.toInt| ∧
    (absU (BitVec.intMin n)).toNat = 2 ^ (n - 1) ∧
    absU v = if v.getLsbD (n - 1) = false then v else ~~~v + 1#n

/-- 00_scope.md R10: `wrap_W` by its formula, and that it keeps exactly the integers that fit. -/
def Obligations.WrapKeepsWhatFits : Prop :=
  ∀ (n : Nat) (z : Int), 0 < n →
    (wrap n z).toInt = (z + 2 ^ (n - 1)) % 2 ^ n - 2 ^ (n - 1) ∧
    (fits n z = true ↔ (wrap n z).toInt = z)

/-- 00_scope.md R13: the shifts by 3 are floor division by 8, and the low 3 bits the remainder. -/
def Obligations.ShiftByThreeIsFloorDivision : Prop :=
  ∀ (n : Nat) (v : BitVec n),
    (v.sshiftRight 3).toInt = fdiv v.toInt 8 ∧
    (((v >>> 3).toNat : Nat) : Int) = fdiv v.toNat 8 ∧
    (v.extractLsb' 0 3).toNat = v.toNat % 8

/-- 30_encoding.md R54: slot `i` is lane `i - 1`, the packed form is the concatenation with slot 8 on top, and
unpacking undoes packing and packing undoes unpacking; with the rule's own example. -/
def Obligations.PackedVectorHasSlotInItsLane : Prop :=
  ∀ (cw : Nat) (v : Slots (BitVec cw)) (b : BitVec (8 * cw)),
    (∀ i, 1 ≤ i → i ≤ 8 → v.get? i = some ((pack v).extractLsb' ((i - 1) * cw) cw)) ∧
    (pack v).toNat =
      (v.c8 ++ v.c7 ++ v.c6 ++ v.c5 ++ v.c4 ++ v.c3 ++ v.c2 ++ v.c1).toNat ∧
    unpack (pack v) = v ∧ pack (unpack b) = b ∧
    pack (⟨0, 1, 0, 0, 0, 0, 0, 1⟩ : Slots (BitVec 32)) =
      0x00000001_00000000_00000000_00000000_00000000_00000000_00000001_00000000#256

/-- 30_encoding.md R55, R57, R58: an encoded instruction decodes to itself, every operand at every value, at all widths
and in the reference instantiation. -/
def Obligations.DecodeUndoesEncode : Prop :=
  ∀ (w : Widths) (i : Instr), w.ok = true → i.wellFormed w = true → decode w (encode w i).toNat = .ok i

/-- 30_encoding.md R55, R59: every command word decodes, nothing wider does, and what is decoded is well formed and keeps
every bit the op's format uses, the ignored fields zero. A command word of the reference instantiation has 354 bits. -/
def Obligations.DecodeReadsEveryUsedField : Prop :=
  (∀ (w : Widths) (x : Nat), (∃ i, decode w x = .ok i) ↔ x < 2 ^ w.commandBits) ∧
  (∀ (w : Widths) (x : BitVec w.commandBits), decode w x.toNat = .ok (Command.ofWord (w := w) x).decode ∧
    (Command.ofWord (w := w) x).toWord = x) ∧
  (∀ (w : Widths) (c : Command w), w.ok = true →
    c.decode.op = c.op ∧ c.decode.wellFormed w = true ∧
    c.decode.command w =
      if c.op.getLsbD 1 then { c with nominal := 0#w.nw } else { c with damage := 0#w.dw, vec := 0#(8 * w.cw) }) ∧
  Config.ref.commandBits = 354

/-- 30_encoding.md R55, R58: command words written out by hand (95_test_vectors.md, programs P1, P3, P4) decode to
their commands. -/
def Obligations.WrittenWordsDecode : Prop :=
  decode Config.ref 0x11 = .ok (.encdr 4) ∧
  decode Config.ref 0x28 = .ok (.encdb 10) ∧
  decode Config.ref 0x3FFFFFFDC = .ok (.encdb (-9)) ∧
  decode Config.ref 0x0_00000004_00000000_00000000_00000000_00000000_00000000_00000004_00000000_00000000_00000FA0_00000002
    = .ok (.appdb 1000 ⟨0, 1, 0, 0, 0, 0, 0, 1⟩) ∧
  decode Config.ref 0x0_00000004_00000000_00000000_00000000_00000000_00000000_00000000_00000000_00000000_00002710_00000003
    = .ok (.appdr 2500 ⟨0, 0, 0, 0, 0, 0, 0, 1⟩)

/-- 30_encoding.md R61, R63: a list of another length than 8 is an assembler error; a list of 8 counts that fit assembles
with the first of them as slot 1 and the last as slot 8; every operand is the integer that was written, a hexadecimal
one the integer of that bit pattern; and what a line assembles to is well formed. -/
def Obligations.AssemblerTakesExactlyEightCounts : Prop :=
  (∀ (w : Widths) (prev : Response) (d : DamageArg) (cs : List Literal), cs.length ≠ 8 →
    (∃ e, assembleLine w prev (.appdb d (.list cs)) = .error e) ∧
    (∃ e, assembleLine w prev (.appdr d (.list cs)) = .error e)) ∧
  (∀ (w : Widths) (prev : Response) (d c1 c2 c3 c4 c5 c6 c7 c8 : Literal),
    let cs := [c1, c2, c3, c4, c5, c6, c7, c8]
    w.ok = true → d.fitsIn w.dw = true → cs.all (Literal.fitsIn w.cw) = true →
    let v : Slots Int :=
      ⟨literalValue w.cw c1, literalValue w.cw c2, literalValue w.cw c3, literalValue w.cw c4, literalValue w.cw c5,
        literalValue w.cw c6, literalValue w.cw c7, literalValue w.cw c8⟩
    assembleLine w prev (.appdb (.lit d) (.list cs)) = .ok (.appdb (literalValue w.dw d) v) ∧
    assembleLine w prev (.appdr (.lit d) (.list cs)) = .ok (.appdr (literalValue w.dw d) v) ∧
    (Instr.appdb (literalValue w.dw d) v).wellFormed w = true) ∧
  (∀ (w : Widths) (prev : Response) (n : Literal), w.ok = true → n.fitsIn w.nw = true →
    assembleLine w prev (.encdb n) = .ok (.encdb (literalValue w.nw n)) ∧
    assembleLine w prev (.encdr n) = .ok (.encdr (literalValue w.nw n)) ∧
    (Instr.encdb (literalValue w.nw n)).wellFormed w = true) ∧
  (∀ (n : Nat) (z : Int) (b : Nat),
    literalValue n (.dec z) = z ∧ (b < 2 ^ n → (BitVec.ofInt n (literalValue n (.hex b))).toNat = b))

/-- 30_encoding.md R63: an operand fits its width exactly if it is a decimal in the signed range of that width or a
hexadecimal number of no more bits, and a line with one that does not fit is an assembler error. -/
def Obligations.AssemblerRefusesWhatDoesNotFit : Prop :=
  (∀ (n : Nat) (z : Int) (b : Nat),
    ((Literal.dec z).fitsIn n = true ↔ -(2 ^ (n - 1)) ≤ z ∧ z ≤ 2 ^ (n - 1) - 1) ∧
    ((Literal.hex b).fitsIn n = true ↔ b < 2 ^ n)) ∧
  (∀ (w : Widths) (prev : Response) (n : Literal), n.fitsIn w.nw = false →
    assembleLine w prev (.encdb n) = .error .operandTooWide ∧
    assembleLine w prev (.encdr n) = .error .operandTooWide) ∧
  (∀ (w : Widths) (prev : Response) (d : Literal) (v : VecArg), d.fitsIn w.dw = false →
    assembleLine w prev (.appdb (.lit d) v) = .error .operandTooWide ∧
    assembleLine w prev (.appdr (.lit d) v) = .error .operandTooWide) ∧
  (∀ (w : Widths) (prev : Response) (d : DamageArg) (cs : List Literal),
    (∃ c ∈ cs, c.fitsIn w.cw = false) →
    (∃ e, assembleLine w prev (.appdb d (.list cs)) = .error e) ∧
    (∃ e, assembleLine w prev (.appdr d (.list cs)) = .error e))

/-- 30_encoding.md R63, R64: `%vec` is the vector and `%dmg` the damage of the previous response, beside an operand of
any form, and a macro is its two lines. That neither token has a value after a response of another kind, and that a
macro as a single line is refused, the rules do not say: it is the model's choice (log 10), made on what the host sees
of a response (10_state.md R31, 60_exceptions.md R134). -/
def Obligations.AssemblerForwardsResponses : Prop :=
  (∀ (w : Widths) (prev : Response) (d : DamageArg) (dmg : Int) (v : VecArg) (vec : Slots Int),
    damageOperand w prev d = .ok dmg → vecOperand w prev v = .ok vec →
    assembleLine w prev (.appdb d v) = .ok (.appdb dmg vec) ∧
    assembleLine w prev (.appdr d v) = .ok (.appdr dmg vec)) ∧
  (∀ (w : Widths) (prev : Response),
    (∀ vec, vecOperand w prev .prevVec = .ok vec ↔ ∃ op, prev = .vector op vec) ∧
    (∀ dmg, damageOperand w prev .prevDmg = .ok dmg ↔ ∃ op ovf, prev = .damage op dmg ovf)) ∧
  (∀ (w : Widths) (prev : Response) (d : DamageArg) (n : Literal),
    expandLine (.moddb d n) = [.encdb n, .appdb d .prevVec] ∧
    expandLine (.moddr d n) = [.encdr n, .appdr d .prevVec] ∧
    assembleLine w prev (.moddb d n) = .error .macroNotExpanded ∧
    assembleLine w prev (.moddr d n) = .error .macroNotExpanded)

/-! ## The encoder -/

/-- 40_encoder.md R80: the engine's encoder is the source's, on every nominal. -/
def Obligations.EncoderAgreesWithSource : Prop :=
  ∀ (w : Widths) (n : BitVec w.nw), w.ok = true →
    ∀ i, 1 ≤ i → i ≤ 8 →
      ((acdsEncode n : Slots (BitVec w.cw)).get? i).map BitVec.toInt = (encZ n.toInt).get? i

/-- 40_encoder.md R75: how many slots are non-zero, what they hold, and their sign. -/
def Obligations.EncodedVectorShape : Prop :=
  ∀ (w : Widths) (n : BitVec w.nw), w.ok = true →
    let v : Slots (BitVec w.cw) := acdsEncode n
    let nonZero := (v.toList.filter (fun c => c ≠ 0#w.cw)).length
    (nonZero = 0 ↔ n.toInt = 0) ∧
    (nonZero = 1 ↔ n.toInt ≠ 0 ∧ (n.toInt.natAbs < 8 ∨ n.toInt.natAbs % 8 = 0)) ∧
    (nonZero = 2 ↔ 8 ≤ n.toInt.natAbs ∧ n.toInt.natAbs % 8 ≠ 0) ∧
    (∀ i c, 1 ≤ i → i ≤ 7 → v.get? i = some c → c.toInt = -1 ∨ c.toInt = 0 ∨ c.toInt = 1) ∧
    (∀ i j c e, 1 ≤ i → i ≤ 7 → 1 ≤ j → j ≤ 7 → v.get? i = some c → v.get? j = some e → c ≠ 0#w.cw → e ≠ 0#w.cw → i = j) ∧
    v.c8.toInt = (if n.toInt < 0 then -1 else 1) * ((n.toInt.natAbs / 8 : Nat) : Int) ∧
    (∀ c ∈ v.toList, c ≠ 0#w.cw → c.msb = n.msb)

/-- 40_encoder.md R76: the encodings of a nominal and of its negation are negations of each other, slot by slot. -/
def Obligations.EncodingOfNegationIsNegated : Prop :=
  (∀ n : Int, encZ (-n) = (encZ n).map (fun c => -c)) ∧
  (∀ (w : Widths) (n : BitVec w.nw), w.ok = true → n ≠ BitVec.intMin w.nw →
    ((acdsEncode (-n) : Slots (BitVec w.cw)).map BitVec.toInt) =
      ((acdsEncode n : Slots (BitVec w.cw)).map fun c => -c.toInt))

/-- 40_encoder.md R77: `whole*8 + remainder = |N|`, and both are read back from the vector. -/
def Obligations.WholeAndRemainderRebuildMagnitude : Prop :=
  ∀ (w : Widths) (n : BitVec w.nw), w.ok = true →
    let v : Slots (BitVec w.cw) := acdsEncode n
    (wholePart n).toNat * 8 + (remainderPart n).toNat = n.toInt.natAbs ∧
    (remainderPart n).toNat ≤ 7 ∧
    v.c8.toInt.natAbs = (wholePart n).toNat ∧
    (∀ i c, 1 ≤ i → i ≤ 7 → v.get? i = some c → (c ≠ 0#w.cw ↔ (remainderPart n).toNat = i))

/-- 40_encoder.md R78: the nominal is the weighted sum of its slots, so the encoder is injective. -/
def Obligations.EncodingDeterminesNominal : Prop :=
  ∀ (w : Widths) (n m : BitVec w.nw), w.ok = true →
    let v : Slots (BitVec w.cw) := acdsEncode n
    n.toInt = v.c1.toInt + 2 * v.c2.toInt + 3 * v.c3.toInt + 4 * v.c4.toInt + 5 * v.c5.toInt + 6 * v.c6.toInt +
      7 * v.c7.toInt + 8 * v.c8.toInt ∧
    (∀ r c, 1 ≤ r → r ≤ 7 → v.get? r = some c → c ≠ 0#w.cw → n.toInt = 8 * v.c8.toInt + (r : Int) * c.toInt) ∧
    ((∀ r c, 1 ≤ r → r ≤ 7 → v.get? r = some c → c = 0#w.cw) → n.toInt = 8 * v.c8.toInt) ∧
    ((acdsEncode m : Slots (BitVec w.cw)) = v → m = n)

/-- 40_encoder.md R79: the bounds of the magnitude and the whole part, so that every value written fits its slot; and the most negative nominal encodes exactly. -/
def Obligations.EncoderNeverTruncates : Prop :=
  ∀ (w : Widths) (n : BitVec w.nw), w.ok = true →
    (0 ≤ n.toInt → (absU n).toNat ≤ 2 ^ (w.nw - 1) - 1 ∧ (wholePart n).toNat ≤ 2 ^ (w.nw - 4) - 1 ∧
      fits w.cw (wholePart n).toNat = true) ∧
    (n.toInt < 0 → (absU n).toNat ≤ 2 ^ (w.nw - 1) ∧ (wholePart n).toNat ≤ 2 ^ (w.nw - 4) ∧
      fits w.cw (-((wholePart n).toNat : Int)) = true) ∧
    fits w.cw 1 = true ∧ fits w.cw (-1) = true ∧
    (absU (BitVec.intMin w.nw)).toNat = 2 ^ (w.nw - 1) ∧
    (wholePart (BitVec.intMin w.nw)).toNat = 2 ^ (w.nw - 4) ∧ remainderPart (BitVec.intMin w.nw) = 0#3 ∧
    (acdsEncode (BitVec.intMin w.nw) : Slots (BitVec w.cw)).map BitVec.toInt =
      ⟨0, 0, 0, 0, 0, 0, 0, -(2 ^ (w.nw - 4))⟩

/-- 40_encoder.md R73: `ENCDB` on every nominal and from every state, with its frame: the whole next state. -/
def Obligations.EncdbWritesSourceEncoding : Prop :=
  ∀ (n : Int) (s : State), s.widths.ok = true → (Instr.encdb n).wellFormed s.widths = true →
    exec (.encdb n) s = .next
      { s with
        regs :=
          { busy := s.regs.busy, rspValid := true, opr := 0b00#2, ovf := false, dmg := s.regs.dmg, vec := s.regs.vec,
            rvec := (encZ n).map (wrap s.widths.cw), idx := s.regs.idx, rep := s.regs.rep } } ∧
    (((encZ n).map (wrap s.widths.cw)).map BitVec.toInt) = encZ n

/-- 40_encoder.md R74: `ENCDR` on every nominal and from every state, with its frame: the whole next state. -/
def Obligations.EncdrWritesSourceEncoding : Prop :=
  ∀ (n : Int) (s : State), s.widths.ok = true → (Instr.encdr n).wellFormed s.widths = true →
    exec (.encdr n) s = .next
      { s with
        regs :=
          { busy := s.regs.busy, rspValid := true, opr := 0b01#2, ovf := false, dmg := s.regs.dmg, vec := s.regs.vec,
            rvec := (encZ n).map (wrap s.widths.cw), idx := s.regs.idx, rep := s.regs.rep } } ∧
    (((encZ n).map (wrap s.widths.cw)).map BitVec.toInt) = encZ n

/-- 40_encoder.md R82: the two entry points write the same vector and differ in the op tag and in nothing else. -/
def Obligations.EncodersDifferInTagOnly : Prop :=
  ∀ (n : Int) (s : State),
    ∃ r : Regs s.widths,
      exec (.encdb n) s = .next { s with regs := { r with opr := 0b00#2 } } ∧
      exec (.encdr n) s = .next { s with regs := { r with opr := 0b01#2 } } ∧
      response { r with opr := 0b00#2 } = .vector 0b00#2 (r.rvec.map BitVec.toInt) ∧
      response { r with opr := 0b01#2 } = .vector 0b01#2 (r.rvec.map BitVec.toInt)

/-- 40_encoder.md R81: the encoder reads no register: from any two states of engines of the same widths it gives the
same vector. -/
def Obligations.EncoderReadsNoRegister : Prop :=
  ∀ (n : Int) (s t : State), s.widths = t.widths →
    ∃ (v : Slots Int) (s' t' u u' : State),
      exec (.encdb n) s = .next s' ∧ exec (.encdb n) t = .next t' ∧ exec (.encdr n) s = .next u ∧
      exec (.encdr n) t = .next u' ∧
      response s'.regs = .vector 0b00#2 v ∧ response t'.regs = .vector 0b00#2 v ∧
      response u.regs = .vector 0b01#2 v ∧ response u'.regs = .vector 0b01#2 v

/-! ## The reducer's arithmetic -/

/-- 41_reducer.md R88: the product is exact in `DW + 3` bits, the delta is the source's, and it fits. -/
def Obligations.DeltaIsExact : Prop :=
  ∀ (w : Widths) (d : BitVec w.dw) (i : BitVec 4), w.ok = true → 1 ≤ i.toNat → i.toNat ≤ 8 →
    (d.signExtend (w.dw + 3) * i.setWidth (w.dw + 3)).toInt = d.toInt * i.toNat ∧
    |d.toInt * (i.toNat : Int)| ≤ 2 ^ (w.dw + 2) ∧
    (stepDelta d i).toInt = deltaZ d.toInt i.toNat ∧
    (0 ≤ d.toInt → 0 ≤ deltaZ d.toInt i.toNat ∧ deltaZ d.toInt i.toNat ≤ d.toInt) ∧
    (d.toInt < 0 → d.toInt ≤ deltaZ d.toInt i.toNat ∧ deltaZ d.toInt i.toNat ≤ -1)

/-- 41_reducer.md R90: the step is the source's where nothing overflows, and otherwise the exact sum modulo `2^DW`. -/
def Obligations.StepWrapsAndFlags : Prop :=
  ∀ (w : Widths) (d : BitVec w.dw) (i : BitVec 4) (up : Bool), w.ok = true → 1 ≤ i.toNat → i.toNat ≤ 8 →
    let z := if up then upZ d.toInt i.toNat else downZ d.toInt i.toNat
    ((stepAdjust d i up).2 = true ↔ ¬ (-(2 ^ (w.dw - 1)) ≤ z ∧ z ≤ 2 ^ (w.dw - 1) - 1)) ∧
    ((stepAdjust d i up).2 = false → (stepAdjust d i up).1.toInt = z) ∧
    (stepAdjust d i up).1.toInt = (z + 2 ^ (w.dw - 1)) % 2 ^ w.dw - 2 ^ (w.dw - 1)

/-- 41_reducer.md R89: the direction of a count, by the context bit and the sign of the count alone. -/
def Obligations.DirectionFollowsTable : Prop :=
  ∀ (cw : Nat) (c : BitVec cw),
    (∀ ctx, raises ctx c = (c.getLsbD (cw - 1) == ctx)) ∧
    (0 < c.toInt → raises false c = true ∧ raises true c = false) ∧
    (c.toInt < 0 → raises false c = false ∧ raises true c = true) ∧
    (c.toInt = 0 → ∀ (dw : Nat) (ctx : Bool) (i : BitVec 4) (a : BitVec dw × Bool), applySlot ctx i c a = a)

/-- 41_reducer.md R98: the bounds of one step, and what follows of overflow, sign and zero. -/
def Obligations.OneStepBounds : Prop :=
  (∀ (d : Int) (i : Nat), 1 ≤ i → i ≤ 8 →
    (0 ≤ d → 0 ≤ downZ d i ∧ downZ d i ≤ d ∧ d ≤ upZ d i ∧ upZ d i ≤ 2 * d) ∧
    (d < 0 → d < downZ d i ∧ downZ d i ≤ 0 ∧ 2 * d ≤ upZ d i ∧ upZ d i < d) ∧
    deltaZ 0 i = 0) ∧
  (∀ (w : Widths) (d : BitVec w.dw) (i : BitVec 4), w.ok = true → 1 ≤ i.toNat → i.toNat ≤ 8 →
    (stepAdjust d i false).2 = false ∧
    ((stepAdjust d i true).2 = true ↔
      ¬ (-(2 ^ (w.dw - 1)) ≤ d.toInt + fdiv (d.toInt * i.toNat) 8 ∧
        d.toInt + fdiv (d.toInt * i.toNat) 8 ≤ 2 ^ (w.dw - 1) - 1)) ∧
    (-(2 ^ (w.dw - 2)) ≤ d.toInt → d.toInt < 2 ^ (w.dw - 2) → (stepAdjust d i true).2 = false)) ∧
  (∀ (ctx : Context) (d : Int) (v : Slots Int),
    (0 ≤ d → ∀ z ∈ pathZ ctx d v, 0 ≤ z) ∧ (d ≤ 0 → ∀ z ∈ pathZ ctx d v, z ≤ 0))

/-- 41_reducer.md R98 (b): damage 0 stays 0, and sets no flag, through every vector. -/
def Obligations.ZeroDamageIsAbsorbing : Prop :=
  ∀ (w : Widths) (ctx : Bool) (v : Slots (BitVec w.cw)), w.ok = true →
    acdsApply ctx 0#w.dw v = (0#w.dw, false)

/-- 41_reducer.md R103: small positive damages are fixed points of small slots, negative ones never are. -/
def Obligations.SmallDamagesAreFixedPoints : Prop :=
  (∀ (d : Int) (i : Nat), 1 ≤ i → i ≤ 8 → 0 < d → d * i < 8 → deltaZ d i = 0 ∧ upZ d i = d ∧ downZ d i = d) ∧
  (∀ (d : Int) (i : Nat), 1 ≤ i → i ≤ 8 → d < 0 → deltaZ d i ≤ -1 ∧ downZ d i ≥ d + 1 ∧ upZ d i ≤ d - 1) ∧
  (∀ i : Nat, 1 ≤ i → i ≤ 8 → downZ (-1) i = 0 ∧ upZ (-1) i = -2) ∧
  (∀ (w : Widths) (d : BitVec w.dw) (i : BitVec 4) (up : Bool) (k : Nat), w.ok = true → 1 ≤ i.toNat → i.toNat ≤ 8 →
    0 < d.toInt → d.toInt * i.toNat < 8 → (adjustOnce i up)^[k] (d, false) = (d, false)) ∧
  upZ 1000 1 = 1125 ∧ upZ (-1001) 1 = -1127

/-- 41_reducer.md R92: a slot whose count is 0 leaves the damage and the flag exactly as they were. -/
def Obligations.ZeroCountIsSkipped : Prop :=
  ∀ (cw dw : Nat) (ctx : Bool) (i : BitVec 4) (a : BitVec dw × Bool), applySlot ctx i 0#cw a = a

/-- 41_reducer.md R102: the all-zero vector returns every damage unchanged, in both contexts. -/
def Obligations.ZeroVectorReturnsDamage : Prop :=
  ∀ (cw dw : Nat) (ctx : Bool) (d : BitVec dw), acdsApply ctx d (Slots.fill 0#cw) = (d, false)

/-- 41_reducer.md R97: the flag is clear exactly when every damage value the source's fold goes through fits, and
then the result is the source's. -/
def Obligations.FoldAgreesWithSource : Prop :=
  ∀ (w : Widths) (ctx : Bool) (d : BitVec w.dw) (v : Slots (BitVec w.cw)), w.ok = true →
    ((acdsApply ctx d v).2 = false ↔
      ∀ z ∈ pathZ (contextOf ctx) d.toInt (v.map BitVec.toInt), fits w.dw z = true) ∧
    ((acdsApply ctx d v).2 = false →
      (acdsApply ctx d v).1.toInt = applyZ (contextOf ctx) d.toInt (v.map BitVec.toInt))

/-- 41_reducer.md R91, R97: the sequence of damage values ends in the source's result, and is as long as the counts
ask for. -/
def Obligations.PathEndsInSourceResult : Prop :=
  ∀ (ctx : Context) (d : Int) (v : Slots Int),
    (d :: pathZ ctx d v).getLast? = some (applyZ ctx d v) ∧
    (pathZ ctx d v).length = (v.toList.map Int.natAbs).sum

/-- 41_reducer.md R97: after an overflow the result is in general neither the source's nor its reduction modulo
`2^DW` (95_test_vectors.md A33). -/
def Obligations.OverflowedFoldDiffersFromSource : Prop :=
  let d : BitVec 64 := 9223372036854775807#64
  let v : Slots (BitVec 32) := ⟨2, 0, 0, 0, 0, 0, 0, 0⟩
  (acdsApply false d v).2 = true ∧
  (acdsApply false d v).1.toInt = -9079256848778919939 ∧
  (acdsApply false d v).1.toInt ≠ applyZ .db d.toInt (v.map BitVec.toInt) ∧
  (acdsApply false d v).1 ≠ wrap 64 (applyZ .db d.toInt (v.map BitVec.toInt))

/-- 41_reducer.md R99: Damage Reduction is Damage Bonus on the negated vector. -/
def Obligations.PolaritiesAreDual : Prop :=
  (∀ (d : Int) (v : Slots Int), applyZ .dr d v = applyZ .db d (v.map fun c => -c)) ∧
  (∀ (cw dw : Nat) (d : BitVec dw) (v : Slots (BitVec cw)),
    (∀ c ∈ v.toList, c ≠ BitVec.intMin cw) → acdsApply true d v = acdsApply false d (v.map fun c => -c))

/-- 41_reducer.md R93, R101: the order of the slots is part of the result, and a bonus and the reduction by the same
vector do not return the damage (95_test_vectors.md A19 to A23). -/
def Obligations.OrderMattersAndNoRoundTrip : Prop :=
  let one (i : Nat) : Slots (BitVec 32) := (Slots.fill 0).set i 1
  acdsApply false (2 : BitVec 64) ((one 2).set 8 1) = (4, false) ∧
  (acdsApply false (acdsApply false (2 : BitVec 64) (one 8)).1 (one 2)).1 = 5 ∧
  (acdsApply true (acdsApply false (1000 : BitVec 64) (one 1)).1 (one 1)).1 = 985 ∧
  (acdsApply true (acdsApply false (1000 : BitVec 64) (one 4)).1 (one 4)).1 = 750

/-! ## The reducer's instructions and steps -/

/-- 41_reducer.md R95, 42_command_sequencing.md R113: the acceptance of `APPDB`, from every state and on every operand,
with its frame: the whole next state. -/
def Obligations.AppdbCopiesOperands : Prop :=
  ∀ (d : Int) (v : Slots Int) (s : State), s.widths.ok = true → (Instr.appdb d v).wellFormed s.widths = true →
    ∃ (dmg : BitVec s.widths.dw) (vec : Slots (BitVec s.widths.cw)),
      dmg.toInt = d ∧ vec.map BitVec.toInt = v ∧
      exec (.appdb d v) s = .next
        { s with
          regs :=
            { busy := true, rspValid := false, opr := 0b10#2, ovf := false, dmg := dmg, vec := vec, rvec := s.regs.rvec,
              idx := 1#4, rep := BitVec.ofNat s.widths.cw v.c1.natAbs } } ∧
      v.c1.natAbs < 2 ^ s.widths.cw

/-- 41_reducer.md R96, 42_command_sequencing.md R113: the acceptance of `APPDR`, likewise. -/
def Obligations.AppdrCopiesOperands : Prop :=
  ∀ (d : Int) (v : Slots Int) (s : State), s.widths.ok = true → (Instr.appdr d v).wellFormed s.widths = true →
    ∃ (dmg : BitVec s.widths.dw) (vec : Slots (BitVec s.widths.cw)),
      dmg.toInt = d ∧ vec.map BitVec.toInt = v ∧
      exec (.appdr d v) s = .next
        { s with
          regs :=
            { busy := true, rspValid := false, opr := 0b11#2, ovf := false, dmg := dmg, vec := vec, rvec := s.regs.rvec,
              idx := 1#4, rep := BitVec.ofNat s.widths.cw v.c1.natAbs } } ∧
      v.c1.natAbs < 2 ^ s.widths.cw

/-- 41_reducer.md R106: the repetition step, with its frame: the whole next state. `c` is `VEC[IDX]`,
which is not 0 here in a legal state. -/
def Obligations.RepetitionStepAdjustsDamage : Prop :=
  ∀ (s : State) (c : BitVec s.widths.cw), s.widths.ok = true → s.sampled.rst = false → s.regs.busy = true →
    s.regs.rep ≠ 0#s.widths.cw → s.regs.vec.get? s.regs.idx.toNat = some c →
    let z := adjustZ s.regs.idx.toNat (c.msb == s.regs.opr.getLsbD 0) s.regs.dmg.toInt
    step s = .next
      { s with
        regs := { s.regs with
          dmg := wrap s.widths.dw z, ovf := s.regs.ovf || !fits s.widths.dw z, rep := s.regs.rep - 1#s.widths.cw }
        inputs := s.inputs.tail } ∧
    (s.regs.legal → c ≠ 0#s.widths.cw)

/-- 41_reducer.md R107: the slot-advance step, with its frame: the whole next state. `c` is `VEC[IDX + 1]`. -/
def Obligations.SlotAdvanceLoadsNextCount : Prop :=
  ∀ (s : State) (c : BitVec s.widths.cw), s.widths.ok = true → s.sampled.rst = false → s.regs.busy = true →
    s.regs.rep = 0#s.widths.cw → s.regs.idx ≠ 8#4 → s.regs.vec.get? (s.regs.idx.toNat + 1) = some c →
    step s = .next
      { s with
        regs := { s.regs with idx := s.regs.idx + 1#4, rep := BitVec.ofNat s.widths.cw c.toInt.natAbs }
        inputs := s.inputs.tail }

/-- 42_command_sequencing.md R115: the completion step, with its frame, and what is observable after it. -/
def Obligations.CompletionPresentsResponse : Prop :=
  ∀ s : State, s.sampled.rst = false → s.regs.busy = true → s.regs.rep = 0#s.widths.cw → s.regs.idx = 8#4 →
    ∃ t, step s = .next t ∧
      t = { s with regs := { s.regs with busy := false, rspValid := true }, inputs := s.inputs.tail } ∧
      cmdReady t.regs = true ∧
      (s.regs.opr.getLsbD 1 = true → response t.regs = .damage s.regs.opr s.regs.dmg.toInt s.regs.ovf)

/-- 41_reducer.md R104: the acceptance of an APP* establishes the invariant of the fold, its repetition and
slot-advance steps keep it, and at the completion step it says that the fold is done. -/
def Obligations.FoldProgressIsKept : Prop :=
  ∀ (w : Widths) (d : BitVec w.dw) (v : Slots (BitVec w.cw)) (op : BitVec 2) (r : Regs w),
    FoldAt d (acceptApp op d v r) ∧
    (FoldAt d r → r.rep ≠ 0#w.cw → FoldAt d (repetitionStep r)) ∧
    (FoldAt d r → r.rep = 0#w.cw → r.idx ≠ 8#4 → FoldAt d (slotAdvanceStep r)) ∧
    (FoldAt d r → r.rep = 0#w.cw → r.idx = 8#4 → (r.dmg, r.ovf) = acdsApply (contextBit r.opr) d r.vec)

/-- 41_reducer.md R108, at all widths: from the acceptance of an APP* on, the reducer steps end, busy until then, and
leave what the fold computes. -/
def Obligations.SequencingComputesFold : Prop :=
  ∀ (w : Widths) (op : BitVec 2) (d : BitVec w.dw) (v : Slots (BitVec w.cw)) (r : Regs w),
    ∃ k,
      (∀ j, j < k → (reduceFor j (acceptApp op d v r)).busy = true ∧
        (reduceFor j (acceptApp op d v r)).rspValid = false) ∧
      let e := reduceFor k (acceptApp op d v r)
      e.busy = false ∧ e.rspValid = true ∧ e.opr = op ∧ e.vec = v ∧ e.rvec = r.rvec ∧
        (e.dmg, e.ovf) = acdsApply (op.getLsbD 0) d v

/-! ## Command sequencing -/

/-- 42_command_sequencing.md R110: the step is total: from every state, under every input, there is a next state. -/
def Obligations.StepIsTotal : Prop := ∀ s : State, ∃ t, step s = .next t

/-- 42_command_sequencing.md R110, R111: an acceptance step runs the instruction that the command ports present, on the
state with those ports consumed; and so does the step after `withFetchWord`, for every word that decodes. -/
def Obligations.StepRunsPresentedInstruction : Prop :=
  (∀ s : State, s.sampled.rst = false → s.regs.busy = false → s.sampled.cmdValid = true →
    step s = exec s.sampled.cmd.decode { s with inputs := s.inputs.tail }) ∧
  (∀ (s : State) (nbits x : Nat) (i : Instr), decode s.widths (x % 2 ^ nbits) = .ok i →
    step (s.withFetchWord nbits x) = exec i { s with regs := { s.regs with busy := false } }) ∧
  (∀ (nbits x : Nat) (i : Instr), decodeTableWord nbits x = some i → i.wellFormed Config.ref = true →
    step (State.reset.withFetchWord nbits x) = exec i State.reset)

/-- 42_command_sequencing.md R112: an ENC* is accepted and completed in one step, which writes what R111 and R112 say
and nothing else. -/
def Obligations.EncodeCompletesAtAcceptance : Prop :=
  ∀ s : State, s.widths.ok = true → s.sampled.rst = false → s.regs.busy = false → s.sampled.cmdValid = true →
    s.sampled.cmd.op.getLsbD 1 = false →
    ∃ t, step s = .next t ∧
      t = { s with
        regs := { s.regs with
          opr := s.sampled.cmd.op, ovf := false, rvec := acdsEncode s.sampled.cmd.nominal, rspValid := true }
        inputs := s.inputs.tail } ∧
      response t.regs = .vector s.sampled.cmd.op (encZ s.sampled.cmd.nominal.toInt) ∧ cmdReady t.regs = true

/-- 42_command_sequencing.md R113: the acceptance step of an APP* writes what R111 and R113 say and nothing else. -/
def Obligations.ApplyAcceptanceCopiesPorts : Prop :=
  ∀ s : State, s.sampled.rst = false → s.regs.busy = false → s.sampled.cmdValid = true →
    s.sampled.cmd.op.getLsbD 1 = true →
    ∃ t, step s = .next t ∧
      t = { s with
        regs := { s.regs with
          opr := s.sampled.cmd.op, ovf := false, rspValid := false, dmg := s.sampled.cmd.damage
          vec := unpack s.sampled.cmd.vec, idx := 1#4, rep := absU (s.sampled.cmd.vec.extractLsb' 0 s.widths.cw)
          busy := true }
        inputs := s.inputs.tail } ∧
      response t.regs = .none ∧ cmdReady t.regs = false

/-- 42_command_sequencing.md R114: while the engine is busy, the command ports have no effect on the step. -/
def Obligations.BusyEngineIgnoresCommands : Prop :=
  ∀ (w : Widths) (r : Regs w) (a b : Inputs w) (rest : List (Inputs w)) (k : Nat), r.busy = true → a.rst = b.rst →
    ∃ t, step ⟨w, r, a :: rest, k⟩ = .next t ∧ step ⟨w, r, b :: rest, k⟩ = .next t

/-- 42_command_sequencing.md R116: an idle step changes no register. -/
def Obligations.IdleStepChangesNoRegister : Prop :=
  ∀ s : State, s.sampled.rst = false → s.regs.busy = false → s.sampled.cmdValid = false →
    ∃ t, step s = .next t ∧ t = { s with inputs := s.inputs.tail } ∧
      response t.regs = response s.regs

/-- 42_command_sequencing.md R117: a response that is observable stays so, unchanged, through every step that is
neither an acceptance nor a reset step; no response of before is left after one that is. -/
def Obligations.ResponseLastsUntilAcceptance : Prop :=
  ∀ s t : State, s.legal → response s.regs ≠ .none → step s = .next t →
    (stepKind s.sampled s.regs ≠ .acceptance → stepKind s.sampled s.regs ≠ .reset →
      response t.regs = response s.regs) ∧
    (stepKind s.sampled s.regs = .reset → response t.regs = .none) ∧
    (stepKind s.sampled s.regs = .acceptance → s.sampled.cmd.op.getLsbD 1 = true → response t.regs = .none) ∧
    (stepKind s.sampled s.regs = .acceptance → s.sampled.cmd.op.getLsbD 1 = false →
      response t.regs = .vector s.sampled.cmd.op (encZ s.sampled.cmd.nominal.toInt))

/-- 10_state.md R27, R29, R30, R35, 41_reducer.md R104: every step keeps the registers legal, from every legal state, and
the widths of the engine. -/
def Obligations.StepKeepsRegistersLegal : Prop :=
  ∀ s t : State, s.regs.legal → step s = .next t → t.regs.legal ∧ t.widths = s.widths

/-- 10_state.md R33: the state after reset, at all widths, is legal, idle, and presents nothing; `State.reset` is that of
the reference instantiation (00_scope.md R7), whose widths R6 admits. -/
def Obligations.ResetStateIsIdleAndLegal : Prop :=
  (∀ w : Widths,
    let s := State.resetAt w
    s.widths = w ∧ s.regs.legal ∧ s.regs.busy = false ∧ s.regs.rspValid = false ∧ s.regs.opr = 0b00#2 ∧
      s.regs.ovf = false ∧ status s.regs = 0b00000#5 ∧ response s.regs = .none ∧ cmdReady s.regs = true) ∧
  State.reset = State.resetAt ⟨32, 32, 64⟩ ∧ State.reset.legal

/-- 10_state.md R30: which bit of the status view is which, and that no legal engine is busy and presents a
response. -/
def Obligations.StatusShowsControlBits : Prop :=
  ∀ (w : Widths) (r : Regs w),
    status r = BitVec.ofBool r.ovf ++ r.opr ++ BitVec.ofBool r.rspValid ++ BitVec.ofBool (!cmdReady r) ∧
    (status r).getLsbD 4 = r.ovf ∧ (status r).extractLsb' 2 2 = r.opr ∧ (status r).getLsbD 1 = r.rspValid ∧
    (status r).getLsbD 0 = r.busy ∧ (status r).getLsbD 0 = !cmdReady r ∧
    (r.legal → ¬ ((status r).getLsbD 0 = true ∧ (status r).getLsbD 1 = true))

/-- 70_reset_and_hazards.md R135, R137, 10_state.md R33: a reset step, from every state and whatever else the ports
carry, leaves the control bits 0, no response and no command in progress, and consumes the ports; the next step
accepts a command (R138). -/
def Obligations.ResetStepClearsControlBits : Prop :=
  ∀ s : State, s.sampled.rst = true →
    ∃ r : Regs s.widths,
      let t : State := { s with regs := r, inputs := s.inputs.tail, resets := s.resets + 1 }
      step s = .next t ∧ r.busy = false ∧ r.rspValid = false ∧ r.opr = 0b00#2 ∧ r.ovf = false ∧
      status r = 0b00000#5 ∧ response r = .none ∧ cmdReady r = true ∧
      (t.sampled.rst = false → t.sampled.cmdValid = true →
        step t = exec t.sampled.cmd.decode { t with inputs := t.inputs.tail })

/-- 10_state.md R23, R31, 30_encoding.md R56: the output ports carry the response view, and the response word has each
of them in its place. -/
def Obligations.PortsCarryResponse : Prop :=
  ∀ (w : Widths) (r : Regs w),
    (outputs r).cmdReady = !r.busy ∧ (outputs r).rspValid = r.rspValid ∧
    ((outputs r).rspValid = false ↔ response r = .none) ∧
    (∀ op v, response r = .vector op v →
      (outputs r).rspOp = op ∧ (unpack (outputs r).rspVec).map BitVec.toInt = v ∧ (outputs r).rspVec = pack r.rvec ∧
        op.getLsbD 1 = false) ∧
    (∀ op d o, response r = .damage op d o →
      (outputs r).rspOp = op ∧ (outputs r).rspDamage.toInt = d ∧ (outputs r).rspOvf = o ∧ op.getLsbD 1 = true) ∧
    (∀ o : Outputs w,
      (responseWord o).getLsbD 0 = o.rspValid ∧ (responseWord o).extractLsb' 1 2 = o.rspOp ∧
      (responseWord o).getLsbD 3 = o.rspOvf ∧ (responseWord o).extractLsb' 4 w.dw = o.rspDamage ∧
      (responseWord o).extractLsb' (w.dw + 4) (8 * w.cw) = o.rspVec)

/-! ## Runs -/

/-- 42_command_sequencing.md R119, 70_reset_and_hazards.md R146: an APP* accepted by an engine in any state reaches its
outcome, the fold of its own operands, after finitely many steps without reset, whatever the host drives meanwhile;
until then the engine is busy and presents nothing. Where the flag is clear, the outcome is the source's. -/
def Obligations.AcceptedApplyReachesOutcome : Prop :=
  ∀ s : State, s.widths.ok = true → NoReset s → s.regs.busy = false → s.sampled.cmdValid = true →
    s.sampled.cmd.op.getLsbD 1 = true →
    ∃ k t, 0 < k ∧ stateAfter k s = some t ∧
      (∀ j, 0 < j → j < k → ∃ u, stateAfter j s = some u ∧ response u.regs = .none ∧ cmdReady u.regs = false) ∧
      cmdReady t.regs = true ∧
      let c := s.sampled.cmd
      let e := acdsApply (c.op.getLsbD 0) c.damage (unpack c.vec)
      response t.regs = .damage c.op e.1.toInt e.2 ∧
      (e.2 = false →
        e.1.toInt = applyZ (contextOf (c.op.getLsbD 0)) c.damage.toInt ((unpack c.vec).map BitVec.toInt))

/-- 42_command_sequencing.md R118, R119: the observation of every run, from every state in which no command is in
progress, is what the contract gives the accepted commands, each from its own operands alone. -/
def Obligations.ObservationMeetsContract : Prop :=
  ∀ (k : Nat) (s : State), s.widths.ok = true → s.regs.busy = false → observation k s = contractRun k none s

/-- 10_state.md R34: what the data registers hold when no command is in progress and no response is presented never
reaches an observation. -/
def Obligations.UnspecifiedRegistersStayUnobserved : Prop :=
  ∀ (k : Nat) (w : Widths) (r q : Regs w) (inputs : List (Inputs w)) (m n : Nat), r.busy = false → q.busy = false →
    r.rspValid = false → q.rspValid = false → views k ⟨w, r, inputs, m⟩ = views k ⟨w, q, inputs, n⟩

/-- 20_memory.md R46, 42_command_sequencing.md R119: what a host sees from a command on does not depend on anything
before its acceptance. -/
def Obligations.OutcomesDependOnOwnOperands : Prop :=
  ∀ (k : Nat) (w : Widths) (r q : Regs w) (a : Inputs w) (rest : List (Inputs w)) (m n : Nat), r.busy = false →
    q.busy = false → a.rst = true ∨ a.cmdValid = true →
    views k ⟨w, r, a :: rest, m⟩ = views k ⟨w, q, a :: rest, n⟩ ∧
      observation k ⟨w, r, a :: rest, m⟩ = observation k ⟨w, q, a :: rest, n⟩

/-- 60_exceptions.md R134, 70_reset_and_hazards.md R140: a host that presents a command until it sees `cmd_ready = 1`,
and is patient enough, gets that command's own response, also from an engine that is busy with an older command or
presents an older response; one that gives up while the engine is busy has not issued it. -/
def Obligations.HostGetsOwnResponse : Prop :=
  ∀ (i : Instr) (s : State), s.legal → i.wellFormed s.widths = true →
    (∃ enough, ∀ patience, enough ≤ patience → ∃ t, issue patience i s = .ok t ∧
      response t.regs = contractOutcome (i.command s.widths) ∧ t.widths = s.widths ∧ cmdReady t.regs = true) ∧
    (s.regs.busy = true → issue 1 i s = .error .notAccepted)

/-- 30_encoding.md R64: `MODDB` and `MODDR` give two responses, the encoded vector and the damage it makes, from
every legal state, to every host that is patient enough. -/
def Obligations.MacroEncodesThenApplies : Prop :=
  ∀ (d n : Literal) (s : State), s.legal → (AsmLine.moddb (.lit d) n).wellFormed s.widths = true →
    let v := encZ (literalValue s.widths.nw n)
    let folded (ctx : Bool) := acdsApply ctx (wrap s.widths.dw (literalValue s.widths.dw d)) (v.map (wrap s.widths.cw))
    ∃ enough, ∀ patience, enough ≤ patience →
      (∃ t, runListing patience [.moddb (.lit d) n] s = .ok
        ([.vector 0b00#2 v, .damage 0b10#2 (folded false).1.toInt (folded false).2], t)) ∧
      (∃ t, runListing patience [.moddr (.lit d) n] s = .ok
        ([.vector 0b01#2 v, .damage 0b11#2 (folded true).1.toInt (folded true).2], t))
end

