-- ==== Sys2Proof/Laws/State.lean ====
section
/-! SUPPORT. Each field of the state after each update of the registers or of the state, so that no later proof unfolds
a record update. -/

namespace Sys2Proof.Machine

variable {w : Widths}

/-! ### `acceptCommon` -/

@[simp] theorem acceptCommon_busy (op : BitVec 2) (r : Regs w) : (acceptCommon op r).busy = r.busy := rfl

@[simp] theorem acceptCommon_rspValid (op : BitVec 2) (r : Regs w) : (acceptCommon op r).rspValid = false := rfl

@[simp] theorem acceptCommon_opr (op : BitVec 2) (r : Regs w) : (acceptCommon op r).opr = op := rfl

@[simp] theorem acceptCommon_ovf (op : BitVec 2) (r : Regs w) : (acceptCommon op r).ovf = false := rfl

@[simp] theorem acceptCommon_dmg (op : BitVec 2) (r : Regs w) : (acceptCommon op r).dmg = r.dmg := rfl

@[simp] theorem acceptCommon_vec (op : BitVec 2) (r : Regs w) : (acceptCommon op r).vec = r.vec := rfl

@[simp] theorem acceptCommon_rvec (op : BitVec 2) (r : Regs w) : (acceptCommon op r).rvec = r.rvec := rfl

@[simp] theorem acceptCommon_idx (op : BitVec 2) (r : Regs w) : (acceptCommon op r).idx = r.idx := rfl

@[simp] theorem acceptCommon_rep (op : BitVec 2) (r : Regs w) : (acceptCommon op r).rep = r.rep := rfl

/-! ### `acceptEnc` -/

@[simp] theorem acceptEnc_busy (op : BitVec 2) (n : BitVec w.nw) (r : Regs w) :
    (acceptEnc op n r).busy = r.busy := rfl

@[simp] theorem acceptEnc_rspValid (op : BitVec 2) (n : BitVec w.nw) (r : Regs w) :
    (acceptEnc op n r).rspValid = true := rfl

@[simp] theorem acceptEnc_opr (op : BitVec 2) (n : BitVec w.nw) (r : Regs w) : (acceptEnc op n r).opr = op := rfl

@[simp] theorem acceptEnc_ovf (op : BitVec 2) (n : BitVec w.nw) (r : Regs w) : (acceptEnc op n r).ovf = false := rfl

@[simp] theorem acceptEnc_dmg (op : BitVec 2) (n : BitVec w.nw) (r : Regs w) : (acceptEnc op n r).dmg = r.dmg := rfl

@[simp] theorem acceptEnc_vec (op : BitVec 2) (n : BitVec w.nw) (r : Regs w) : (acceptEnc op n r).vec = r.vec := rfl

@[simp] theorem acceptEnc_rvec (op : BitVec 2) (n : BitVec w.nw) (r : Regs w) :
    (acceptEnc op n r).rvec = acdsEncode n := rfl

@[simp] theorem acceptEnc_idx (op : BitVec 2) (n : BitVec w.nw) (r : Regs w) : (acceptEnc op n r).idx = r.idx := rfl

@[simp] theorem acceptEnc_rep (op : BitVec 2) (n : BitVec w.nw) (r : Regs w) : (acceptEnc op n r).rep = r.rep := rfl

/-! ### `acceptApp` -/

@[simp] theorem acceptApp_busy (op : BitVec 2) (d : BitVec w.dw) (v : Slots (BitVec w.cw)) (r : Regs w) :
    (acceptApp op d v r).busy = true := rfl

@[simp] theorem acceptApp_rspValid (op : BitVec 2) (d : BitVec w.dw) (v : Slots (BitVec w.cw)) (r : Regs w) :
    (acceptApp op d v r).rspValid = false := rfl

@[simp] theorem acceptApp_opr (op : BitVec 2) (d : BitVec w.dw) (v : Slots (BitVec w.cw)) (r : Regs w) :
    (acceptApp op d v r).opr = op := rfl

@[simp] theorem acceptApp_ovf (op : BitVec 2) (d : BitVec w.dw) (v : Slots (BitVec w.cw)) (r : Regs w) :
    (acceptApp op d v r).ovf = false := rfl

@[simp] theorem acceptApp_dmg (op : BitVec 2) (d : BitVec w.dw) (v : Slots (BitVec w.cw)) (r : Regs w) :
    (acceptApp op d v r).dmg = d := rfl

@[simp] theorem acceptApp_vec (op : BitVec 2) (d : BitVec w.dw) (v : Slots (BitVec w.cw)) (r : Regs w) :
    (acceptApp op d v r).vec = v := rfl

@[simp] theorem acceptApp_rvec (op : BitVec 2) (d : BitVec w.dw) (v : Slots (BitVec w.cw)) (r : Regs w) :
    (acceptApp op d v r).rvec = r.rvec := rfl

@[simp] theorem acceptApp_idx (op : BitVec 2) (d : BitVec w.dw) (v : Slots (BitVec w.cw)) (r : Regs w) :
    (acceptApp op d v r).idx = 1#4 := rfl

@[simp] theorem acceptApp_rep (op : BitVec 2) (d : BitVec w.dw) (v : Slots (BitVec w.cw)) (r : Regs w) :
    (acceptApp op d v r).rep = repetitions v.c1 := rfl

/-! ### `repetitionStep` -/

@[simp] theorem repetitionStep_busy (r : Regs w) : (repetitionStep r).busy = r.busy := rfl

@[simp] theorem repetitionStep_rspValid (r : Regs w) : (repetitionStep r).rspValid = r.rspValid := rfl

@[simp] theorem repetitionStep_opr (r : Regs w) : (repetitionStep r).opr = r.opr := rfl

@[simp] theorem repetitionStep_ovf (r : Regs w) :
    (repetitionStep r).ovf = (r.ovf || (stepAdjust r.dmg r.idx (raises (contextBit r.opr) (readSlot r.vec r.idx))).2) := rfl

@[simp] theorem repetitionStep_dmg (r : Regs w) :
    (repetitionStep r).dmg = (stepAdjust r.dmg r.idx (raises (contextBit r.opr) (readSlot r.vec r.idx))).1 := rfl

@[simp] theorem repetitionStep_vec (r : Regs w) : (repetitionStep r).vec = r.vec := rfl

@[simp] theorem repetitionStep_rvec (r : Regs w) : (repetitionStep r).rvec = r.rvec := rfl

@[simp] theorem repetitionStep_idx (r : Regs w) : (repetitionStep r).idx = r.idx := rfl

@[simp] theorem repetitionStep_rep (r : Regs w) : (repetitionStep r).rep = r.rep - 1#w.cw := rfl

/-! ### `slotAdvanceStep` -/

@[simp] theorem slotAdvanceStep_busy (r : Regs w) : (slotAdvanceStep r).busy = r.busy := rfl

@[simp] theorem slotAdvanceStep_rspValid (r : Regs w) : (slotAdvanceStep r).rspValid = r.rspValid := rfl

@[simp] theorem slotAdvanceStep_opr (r : Regs w) : (slotAdvanceStep r).opr = r.opr := rfl

@[simp] theorem slotAdvanceStep_ovf (r : Regs w) : (slotAdvanceStep r).ovf = r.ovf := rfl

@[simp] theorem slotAdvanceStep_dmg (r : Regs w) : (slotAdvanceStep r).dmg = r.dmg := rfl

@[simp] theorem slotAdvanceStep_vec (r : Regs w) : (slotAdvanceStep r).vec = r.vec := rfl

@[simp] theorem slotAdvanceStep_rvec (r : Regs w) : (slotAdvanceStep r).rvec = r.rvec := rfl

@[simp] theorem slotAdvanceStep_idx (r : Regs w) : (slotAdvanceStep r).idx = r.idx + 1#4 := rfl

@[simp] theorem slotAdvanceStep_rep (r : Regs w) :
    (slotAdvanceStep r).rep = repetitions (readSlot r.vec (r.idx + 1#4)) := rfl

/-! ### `completionStep` -/

@[simp] theorem completionStep_busy (r : Regs w) : (completionStep r).busy = false := rfl

@[simp] theorem completionStep_rspValid (r : Regs w) : (completionStep r).rspValid = true := rfl

@[simp] theorem completionStep_opr (r : Regs w) : (completionStep r).opr = r.opr := rfl

@[simp] theorem completionStep_ovf (r : Regs w) : (completionStep r).ovf = r.ovf := rfl

@[simp] theorem completionStep_dmg (r : Regs w) : (completionStep r).dmg = r.dmg := rfl

@[simp] theorem completionStep_vec (r : Regs w) : (completionStep r).vec = r.vec := rfl

@[simp] theorem completionStep_rvec (r : Regs w) : (completionStep r).rvec = r.rvec := rfl

@[simp] theorem completionStep_idx (r : Regs w) : (completionStep r).idx = r.idx := rfl

@[simp] theorem completionStep_rep (r : Regs w) : (completionStep r).rep = r.rep := rfl

/-! ### `resetRegs` -/

@[simp] theorem resetRegs_busy (k : Nat) : (resetRegs w k).busy = false := rfl

@[simp] theorem resetRegs_rspValid (k : Nat) : (resetRegs w k).rspValid = false := rfl

@[simp] theorem resetRegs_opr (k : Nat) : (resetRegs w k).opr = 0b00#2 := rfl

@[simp] theorem resetRegs_ovf (k : Nat) : (resetRegs w k).ovf = false := rfl

@[simp] theorem resetRegs_dmg (k : Nat) : (resetRegs w k).dmg = Config.resetDmg w k := rfl

@[simp] theorem resetRegs_vec (k : Nat) : (resetRegs w k).vec = Slots.ofSlot (Config.resetVecSlot w k) := rfl

@[simp] theorem resetRegs_rvec (k : Nat) : (resetRegs w k).rvec = Slots.ofSlot (Config.resetRvecSlot w k) := rfl

@[simp] theorem resetRegs_idx (k : Nat) : (resetRegs w k).idx = Config.resetIdx k := rfl

@[simp] theorem resetRegs_rep (k : Nat) : (resetRegs w k).rep = Config.resetRep w k := rfl

/-! ### Updates of the state -/

@[simp] theorem afterSample_widths (s : State) : s.afterSample.widths = s.widths := rfl

@[simp] theorem afterSample_regs (s : State) : s.afterSample.regs = s.regs := rfl

@[simp] theorem afterSample_inputs (s : State) : s.afterSample.inputs = s.inputs.tail := rfl

@[simp] theorem afterSample_resets (s : State) : s.afterSample.resets = s.resets := rfl

@[simp] theorem resetStep_widths (s : State) : (resetStep s).widths = s.widths := rfl

@[simp] theorem resetStep_regs (s : State) : (resetStep s).regs = resetRegs s.widths s.resets := rfl

@[simp] theorem resetStep_inputs (s : State) : (resetStep s).inputs = s.inputs := rfl

@[simp] theorem resetStep_resets (s : State) : (resetStep s).resets = s.resets + 1 := rfl

@[simp] theorem withFetchWord_widths (s : State) (nbits x : Nat) :
    (s.withFetchWord nbits x).widths = s.widths := rfl

@[simp] theorem withFetchWord_regs (s : State) (nbits x : Nat) :
    (s.withFetchWord nbits x).regs = { s.regs with busy := false } := rfl

@[simp] theorem withFetchWord_resets (s : State) (nbits x : Nat) :
    (s.withFetchWord nbits x).resets = s.resets := rfl

@[simp] theorem withFetchWord_sampled (s : State) (nbits x : Nat) :
    (s.withFetchWord nbits x).sampled = Inputs.present (Command.ofNat (x % 2 ^ nbits)) := rfl

@[simp] theorem withFetchWord_inputs_tail (s : State) (nbits x : Nat) :
    (s.withFetchWord nbits x).inputs.tail = s.inputs := rfl

@[simp] theorem sampled_cons (r : Regs w) (i : Inputs w) (is : List (Inputs w)) (k : Nat) :
    State.sampled { widths := w, regs := r, inputs := i :: is, resets := k } = i := rfl

@[simp] theorem sampled_nil (r : Regs w) (k : Nat) :
    State.sampled { widths := w, regs := r, inputs := [], resets := k } = Inputs.idle := rfl

@[simp] theorem present_rst (c : Command w) : (Inputs.present c).rst = false := rfl

@[simp] theorem present_cmdValid (c : Command w) : (Inputs.present c).cmdValid = true := rfl

@[simp] theorem present_cmd (c : Command w) : (Inputs.present c).cmd = c := rfl

@[simp] theorem idle_rst : (Inputs.idle : Inputs w).rst = false := rfl

@[simp] theorem idle_cmdValid : (Inputs.idle : Inputs w).cmdValid = false := rfl

/-! ### The state after reset -/

@[simp] theorem resetAt_widths : (State.resetAt w).widths = w := rfl

@[simp] theorem resetAt_busy : (State.resetAt w).regs.busy = false := rfl

@[simp] theorem resetAt_rspValid : (State.resetAt w).regs.rspValid = false := rfl

@[simp] theorem resetAt_opr : (State.resetAt w).regs.opr = 0b00#2 := rfl

@[simp] theorem resetAt_ovf : (State.resetAt w).regs.ovf = false := rfl

@[simp] theorem resetAt_inputs : (State.resetAt w).inputs = [] := rfl

end Sys2Proof.Machine
end

