-- ==== Sys2Proof/Laws/Ops.lean ====
section
/-! SUPPORT. What each shared operation can do, said once: reading a slot, the kind of a step, the acceptance of a
presented command, the fold up to a position. -/

namespace Sys2Proof.Machine

/-! ## Slots -/

theorem get?_map {α β : Type} (f : α → β) (v : Slots α) (i : Nat) : (v.map f).get? i = (v.get? i).map f := by
  unfold Slots.get? Slots.map
  split <;> rfl

theorem get?_isSome_iff {α : Type} (v : Slots α) (i : Nat) : (v.get? i).isSome = true ↔ 1 ≤ i ∧ i ≤ 8 := by
  match i with
  | 0 | 1 | 2 | 3 | 4 | 5 | 6 | 7 | 8 => simp [Slots.get?]
  | k + 9 => simp [Slots.get?]

theorem readSlot_of_get? {cw : Nat} {v : Slots (BitVec cw)} {i : BitVec 4} {c : BitVec cw}
    (h : v.get? i.toNat = some c) : readSlot v i = c := by
  simp [readSlot, h]

theorem readSlot_outside {cw : Nat} {v : Slots (BitVec cw)} {i : BitVec 4} (h : ¬ (1 ≤ i.toNat ∧ i.toNat ≤ 8)) :
    readSlot v i = Config.slotOutside v i := by
  have hn : v.get? i.toNat = none := by
    simpa using mt (get?_isSome_iff v i.toNat).mp h
  simp [readSlot, hn]

@[simp] theorem readSlot_one {cw : Nat} (v : Slots (BitVec cw)) : readSlot v 1#4 = v.c1 := by
  simp [readSlot, Slots.get?]

/-! ## Narrowing -/

/-- Narrowing the integer of a value gives the value back. -/
@[simp] theorem wrap_toInt {n : Nat} (v : BitVec n) : wrap n v.toInt = v := BitVec.ofInt_toInt

/-- Narrowing the integers of a vector's slots gives the vector back. -/
@[simp] theorem map_wrap_map_toInt {cw : Nat} (v : Slots (BitVec cw)) : (v.map BitVec.toInt).map (wrap cw) = v := by
  simp [Slots.map]

/-! ## Counting down and up -/

/-- Lowering a register that is not 0 by one. -/
theorem toNat_pred {n : Nat} {r : BitVec n} (h : r ≠ 0#n) : (r - 1#n).toNat = r.toNat - 1 ∧ 0 < r.toNat := by
  have hpos : 0 < r.toNat := by
    rcases Nat.eq_zero_or_pos r.toNat with h0 | h0
    · exact absurd (BitVec.eq_of_toNat_eq (by simpa using h0)) h
    · exact h0
  have hlt := r.isLt
  have hn : n ≠ 0 := by rintro rfl; omega
  have hone : (1#n).toNat = 1 := by
    rw [BitVec.toNat_ofNat, Nat.mod_eq_of_lt (Nat.one_lt_two_pow hn)]
  refine ⟨?_, hpos⟩
  rw [BitVec.toNat_sub, hone, show 2 ^ n - 1 + r.toNat = (r.toNat - 1) + 2 ^ n by omega, Nat.add_mod_right,
    Nat.mod_eq_of_lt (by omega)]

/-- Raising a slot number below 8 by one. -/
theorem toNat_slot_succ {i : BitVec 4} (h : i.toNat ≤ 8) : (i + 1#4).toNat = i.toNat + 1 := by
  simp [BitVec.toNat_add]; omega

/-! ## The fold up to a position (41_reducer.md R104) -/

section Fold

variable {cw dw : Nat} (ctx : Bool) (v : Slots (BitVec cw)) (d : BitVec dw)

theorem partialFold_start : partialFold ctx v d 1#4 0 = (d, false) := by
  simp [partialFold, applySlots]

theorem partialFold_succ (i : BitVec 4) (k : Nat) :
    partialFold ctx v d i (k + 1) = adjustOnce i (raises ctx (readSlot v i)) (partialFold ctx v d i k) := by
  unfold partialFold
  rw [Function.iterate_succ_apply']

theorem partialFold_next {i : BitVec 4} (h1 : 1 ≤ i.toNat) (h7 : i.toNat ≤ 7) :
    partialFold ctx v d (i + 1#4) 0 = partialFold ctx v d i (repetitions (readSlot v i)).toNat := by
  have htake : slotNumbers.take (i.toNat + 1 - 1) = slotNumbers.take (i.toNat - 1) ++ [i] := by
    revert h1 h7; revert i; decide
  unfold partialFold
  rw [toNat_slot_succ (by omega), htake]
  simp [applySlots, List.foldl_append, applySlot]

theorem acdsApply_eq_partialFold :
    acdsApply ctx d v = partialFold ctx v d 8#4 (repetitions (readSlot v 8#4)).toNat := by
  have htake : slotNumbers = slotNumbers.take ((8#4).toNat - 1) ++ [8#4] := by decide
  unfold partialFold acdsApply
  conv_lhs => rw [htake]
  simp [applySlots, List.foldl_append, applySlot]

end Fold

end Sys2Proof.Machine
end

