-- ==== Sys2Proof/Laws/PerInstr.lean ====
section
/-! SUPPORT. Families of statements about every instruction as syntax, one lemma per constructor. -/

namespace Sys2Proof.Laws

/-- The bundle an instruction is encoded as, at every width: its op, and zero in the fields its format ignores
(30_encoding.md R55, R58, R63). -/
def EncodedFields.Statement (i : Instr) : Prop :=
  ∀ w : Widths, (i.command w).op = i.op ∧
    (i.op.getLsbD 1 = false → (i.command w).damage = 0#w.dw ∧ (i.command w).vec = 0#(8 * w.cw)) ∧
    (i.op.getLsbD 1 = true → (i.command w).nominal = 0#w.nw)

theorem EncodedFields.encdb (n : Int) : EncodedFields.Statement (.encdb n) :=
  fun _ => ⟨rfl, fun _ => ⟨rfl, rfl⟩, fun h => absurd h (by simp [Instr.op])⟩

theorem EncodedFields.encdr (n : Int) : EncodedFields.Statement (.encdr n) :=
  fun _ => ⟨rfl, fun _ => ⟨rfl, rfl⟩, fun h => absurd h (by simp [Instr.op])⟩

theorem EncodedFields.appdb (d : Int) (v : Slots Int) : EncodedFields.Statement (.appdb d v) :=
  fun _ => ⟨rfl, fun h => absurd h (by simp [Instr.op]), fun _ => rfl⟩

theorem EncodedFields.appdr (d : Int) (v : Slots Int) : EncodedFields.Statement (.appdr d v) :=
  fun _ => ⟨rfl, fun h => absurd h (by simp [Instr.op]), fun _ => rfl⟩

end Sys2Proof.Laws
end

