-- ==== Sys2Proof/Laws/Step.lean ====
section
/-! SUPPORT. What a step can do, said once: when each kind is taken, what the acceptance of a presented command does,
and the cases of a step that answers. -/

namespace Sys2Proof.Machine

/-- When each kind of step is taken (42_command_sequencing.md R110). -/
theorem stepKind_spec {w : Widths} (inp : Inputs w) (r : Regs w) :
    match stepKind inp r with
    | .reset => inp.rst = true
    | .repetition => inp.rst = false ∧ r.busy = true ∧ r.rep ≠ 0#w.cw
    | .slotAdvance => inp.rst = false ∧ r.busy = true ∧ r.rep = 0#w.cw ∧ r.idx ≠ 8#4
    | .completion => inp.rst = false ∧ r.busy = true ∧ r.rep = 0#w.cw ∧ r.idx = 8#4
    | .acceptance => inp.rst = false ∧ r.busy = false ∧ inp.cmdValid = true
    | .idle => inp.rst = false ∧ r.busy = false ∧ inp.cmdValid = false := by
  unfold stepKind reducerKind
  split_ifs <;> simp_all

/-- Every meaning answers a next state, which differs in the registers alone. -/
theorem exec_changes_registers (i : Instr) (s : State) : ∃ r, exec i s = .next { s with regs := r } := by
  cases i <;> exact ⟨_, rfl⟩

/-- The acceptance of what the command ports present, by the unit bit of the op (42_command_sequencing.md R112,
R113). -/
theorem exec_decode_cases (s : State) (c : Command s.widths) :
    (unitBit c.op = false ∧ exec c.decode s = .next { s with regs := acceptEnc c.op c.nominal s.regs }) ∨
    (unitBit c.op = true ∧
      exec c.decode s = .next { s with regs := acceptApp c.op c.damage (unpack c.vec) s.regs }) := by
  obtain ⟨op, n, d, v⟩ := c
  have hop : op = 0b00#2 ∨ op = 0b01#2 ∨ op = 0b10#2 ∨ op = 0b11#2 := by revert op; decide
  rcases hop with rfl | rfl | rfl | rfl
  · exact .inl ⟨by simp [unitBit], by simp [Command.decode, exec, execEncdb]⟩
  · exact .inl ⟨by simp [unitBit], by simp [Command.decode, exec, execEncdr]⟩
  · exact .inr ⟨by simp [unitBit], by simp [Command.decode, exec, execAppdb]⟩
  · exact .inr ⟨by simp [unitBit], by simp [Command.decode, exec, execAppdr]⟩

/-- The cases of a step: what holds of the ports and the registers, and the next state. -/
theorem step_cases {s t : State} (h : step s = .next t) :
    (s.sampled.rst = true ∧ t = resetStep s.afterSample) ∨
    (s.sampled.rst = false ∧ s.regs.busy = true ∧ s.regs.rep ≠ 0#s.widths.cw ∧
      t = { s.afterSample with regs := repetitionStep s.regs }) ∨
    (s.sampled.rst = false ∧ s.regs.busy = true ∧ s.regs.rep = 0#s.widths.cw ∧ s.regs.idx ≠ 8#4 ∧
      t = { s.afterSample with regs := slotAdvanceStep s.regs }) ∨
    (s.sampled.rst = false ∧ s.regs.busy = true ∧ s.regs.rep = 0#s.widths.cw ∧ s.regs.idx = 8#4 ∧
      t = { s.afterSample with regs := completionStep s.regs }) ∨
    (s.sampled.rst = false ∧ s.regs.busy = false ∧ s.sampled.cmdValid = true ∧ unitBit s.sampled.cmd.op = false ∧
      t = { s.afterSample with
        regs := acceptEnc s.sampled.cmd.op s.sampled.cmd.nominal s.regs }) ∨
    (s.sampled.rst = false ∧ s.regs.busy = false ∧ s.sampled.cmdValid = true ∧ unitBit s.sampled.cmd.op = true ∧
      t = { s.afterSample with
        regs := acceptApp s.sampled.cmd.op s.sampled.cmd.damage (unpack s.sampled.cmd.vec)
          s.regs }) ∨
    (s.sampled.rst = false ∧ s.regs.busy = false ∧ s.sampled.cmdValid = false ∧ t = s.afterSample) := by
  have hk := stepKind_spec s.sampled s.regs
  unfold step at h
  cases hkind : stepKind s.sampled s.regs <;> rw [hkind] at h hk <;> simp only at h hk
  · cases h; exact .inl ⟨hk, rfl⟩
  · cases h; exact .inr (.inl ⟨hk.1, hk.2.1, hk.2.2, rfl⟩)
  · cases h; exact .inr (.inr (.inl ⟨hk.1, hk.2.1, hk.2.2.1, hk.2.2.2, rfl⟩))
  · cases h; exact .inr (.inr (.inr (.inl ⟨hk.1, hk.2.1, hk.2.2.1, hk.2.2.2, rfl⟩)))
  · rcases exec_decode_cases s.afterSample s.sampled.cmd with ⟨hu, he⟩ | ⟨hu, he⟩
    · cases he.symm.trans h
      exact .inr (.inr (.inr (.inr (.inl ⟨hk.1, hk.2.1, hk.2.2, hu, rfl⟩))))
    · cases he.symm.trans h
      exact .inr (.inr (.inr (.inr (.inr (.inl ⟨hk.1, hk.2.1, hk.2.2, hu, rfl⟩)))))
  · cases h; exact .inr (.inr (.inr (.inr (.inr (.inr ⟨hk.1, hk.2.1, hk.2.2, rfl⟩)))))

/-- A run of one step more is the step and then the run. -/
theorem stateAfter_succ {s t : State} (k : Nat) (h : step s = .next t) : stateAfter (k + 1) s = stateAfter k t := by
  have hc : core.step s = .next t := h
  simp [stateAfter, Host.Core.run, hc]

end Sys2Proof.Machine
end

