-- ==== Sys2Proof/Tests/Slice0.lean ====
section
/-! SUPPORT. The model's own tests. Expected values come from spec/95_test_vectors.md (the row is named) or are worked by
hand from the rule named; the second half gives, for every statement with hypotheses, states and operands that meet
them. -/

namespace Sys2Proof.Tests

open Sys2Proof.Machine

/-! ## Helpers -/

/-- An idle engine whose host presents a command in the next step. -/
def presenting (c : Command Config.ref) : State :=
  { State.resetAt Config.ref with inputs := [Inputs.present c] }

/-- A vector of small integers, as counts of 32 bits. -/
def vec (a b c d e f g h : Int) : Slots (BitVec 32) := (⟨a, b, c, d, e, f, g, h⟩ : Slots Int).map (BitVec.ofInt 32)

/-- The registers in the middle of an APP* command. -/
def busyRegs (op : BitVec 2) (d : Int) (v : Slots (BitVec 32)) (idx : BitVec 4) (rep : BitVec 32) : Regs Config.ref :=
  { busy := true, rspValid := false, opr := op, ovf := false, dmg := BitVec.ofInt 64 d, vec := v
    rvec := Slots.fill 0, idx := idx, rep := rep }

/-- An engine with these registers, its host driving `inputs`. -/
def engine (r : Regs Config.ref) (inputs : List (Inputs Config.ref)) : State := ⟨Config.ref, r, inputs, 0⟩

/-- An engine in the middle of an APP* command, its host presenting nothing. -/
def busyAt (op : BitVec 2) (d : Int) (v : Slots (BitVec 32)) (idx : BitVec 4) (rep : BitVec 32) : State :=
  engine (busyRegs op d v idx rep) []

/-- The registers of an idle engine that presents a damage response. -/
def answeredRegs : Regs Config.ref :=
  { busy := false, rspValid := true, opr := 0b10#2, ovf := true, dmg := 7, vec := vec 0 0 0 0 0 0 0 2
    rvec := vec 1 0 0 0 0 0 0 0, idx := 8, rep := 0 }

/-- An idle engine that presents a damage response, its host driving `inputs`. -/
def answered (inputs : List (Inputs Config.ref)) : State := engine answeredRegs inputs

/-- The state after a step that answers. -/
def after (s : State) : Option State :=
  match step s with
  | .next t => some t
  | .fault _ => none
  | .refused _ => none

/-- Ports on which the host asserts reset while it presents a command. -/
def resetWith (c : Command Config.ref) : Inputs Config.ref := { rst := true, cmdValid := true, cmd := c }

/-! ## Decoding: words written out from 30_encoding.md R55 -/

/-- Op `00` in bits 1:0, nominal 10 in bits 33:2 (program P3). -/
theorem test_decode_encdb : decode Config.ref 0x28 = .ok (.encdb 10) := by decide

/-- Op `01`, nominal 4 (program P1). -/
theorem test_decode_encdr : decode Config.ref 0x11 = .ok (.encdr 4) := by decide

/-- Op `10`, damage 1000 in bits 97:34, slots 2 and 8 of the vector in bits 353:98 set to 1 (program P3). -/
theorem test_decode_appdb :
    decode Config.ref 0x0_00000004_00000000_00000000_00000000_00000000_00000000_00000004_00000000_00000000_00000FA0_00000002
      = .ok (.appdb 1000 ⟨0, 1, 0, 0, 0, 0, 0, 1⟩) := by decide

/-- Op `11`, damage 1000, slot 4 set to 1 (program P1). -/
theorem test_decode_appdr :
    decode Config.ref 0x0_00000000_00000000_00000000_00000000_00000004_00000000_00000000_00000000_00000000_00000FA0_00000003
      = .ok (.appdr 1000 ⟨0, 0, 0, 1, 0, 0, 0, 0⟩) := by decide

/-- A number with a bit above the command word's last is refused by name. -/
theorem test_decode_refuses_wider_number :
    decode Config.ref 0x40000000000000000000000000000000000000000000000000000000000000000000000000000000000000000
      = .error .widerThanCommandWord := by decide

/-- The four rows of spec/opcode_table.json. -/
theorem test_decode_table_rows :
    [0, 1, 2, 3].map (decodeTableWord 8) =
      [some (.encdb 0), some (.encdr 0), some (.appdb 0 (Slots.fill 0)), some (.appdr 0 (Slots.fill 0))] := by decide

/-- The step after `withFetchWord` runs the word, as the first instruction after reset. -/
theorem test_fetch_word_runs_first :
    step (State.reset.withFetchWord 8 3) = exec (.appdr 0 (Slots.fill 0)) State.reset := by rfl

/-- The packed form of E13, slot 1 in the least significant lane. -/
theorem test_pack_lanes :
    pack (vec (-1) 0 0 0 0 0 0 (-1)) =
      0xFFFFFFFF_00000000_00000000_00000000_00000000_00000000_00000000_FFFFFFFF#256 := by decide

/-! ## Well-formedness: an ill-formed term for each check -/

theorem test_widths_reference_ok : Config.ref.ok = true := by decide
theorem test_widths_narrow_nominal_refused : (Widths.mk 3 32 64).ok = false := by decide
theorem test_widths_narrow_count_refused : (Widths.mk 4 1 64).ok = false := by decide
theorem test_widths_count_too_narrow_for_nominal_refused : (Widths.mk 32 28 64).ok = false := by decide
theorem test_widths_narrow_damage_refused : (Widths.mk 32 32 3).ok = false := by decide

/-- 2^31 does not fit a signed nominal of 32 bits; the same pattern in hexadecimal does, and one bit more does not. -/
theorem test_nominal_out_of_range_refused :
    (AsmLine.encdb (.dec 2147483648)).wellFormed Config.ref = false ∧ (AsmLine.encdr (.dec (-2147483649))).wellFormed Config.ref = false ∧
      (AsmLine.encdb (.hex 0x80000000)).wellFormed Config.ref = true ∧ (AsmLine.encdb (.hex 0x100000000)).wellFormed Config.ref = false := by
  decide

theorem test_damage_out_of_range_refused :
    (AsmLine.moddb (.lit (.dec (2 ^ 63))) (.dec 1)).wellFormed Config.ref = false ∧
      (AsmLine.moddr (.lit (.dec (-2 ^ 63))) (.dec 1)).wellFormed Config.ref = true := by decide

theorem test_vector_length_refused :
    (AsmLine.appdb (.lit (.dec 1)) (.list (List.replicate 7 (.dec 0)))).wellFormed Config.ref = false ∧
      (AsmLine.appdr (.lit (.dec 1)) (.list (List.replicate 9 (.dec 0)))).wellFormed Config.ref = false ∧
      (AsmLine.appdr .prevDmg (.list (List.replicate 8 (.dec 0)))).wellFormed Config.ref = true := by decide

theorem test_count_out_of_range_refused :
    (AsmLine.appdb (.lit (.dec 1)) (.list (.dec (2 ^ 31) :: List.replicate 7 (.dec 0)))).wellFormed Config.ref = false := by decide

/-! ## ENCDB and ENCDR -/

/-- Q2 and E7. -/
theorem test_encdb_ten :
    (after (presenting { op := 0b00#2, nominal := 10, damage := 5, vec := 5 })).map (fun t => response t.regs) =
      some (.vector 0b00#2 ⟨0, 1, 0, 0, 0, 0, 0, 1⟩) := by decide

/-- E23: the most negative nominal. -/
theorem test_encdb_most_negative :
    (acdsEncode 0x80000000#32 : Slots (BitVec 32)) = vec 0 0 0 0 0 0 0 (-268435456) := by decide

/-- E13, presented while a damage response stands (Q9): the response is replaced, the flag cleared. -/
theorem test_encdr_replaces_response :
    (after (answered [Inputs.present { op := 0b01#2, nominal := BitVec.ofInt 32 (-9), damage := 0, vec := 0 }])).map
        (fun t => (response t.regs, t.regs.ovf, t.regs.dmg.toInt)) =
      some (.vector 0b01#2 ⟨-1, 0, 0, 0, 0, 0, 0, -1⟩, false, 7) := by decide

/-- E24. -/
theorem test_encdr_next_to_most_negative :
    (acdsEncode 0x80000001#32 : Slots (BitVec 32)) = vec 0 0 0 0 0 0 (-1) (-268435455) := by decide

/-- E9 to E14, the negative nominals on which 40_encoder.md R83 asks for tests: bit pattern, whole, remainder and
vector. A floor division of the signed nominal fails all of them but E12. -/
def negativeNominals : List (BitVec 32 × Nat × Nat × Slots Int) :=
  [(0xFFFFFFFF, 0, 1, ⟨-1, 0, 0, 0, 0, 0, 0, 0⟩), (0xFFFFFFFD, 0, 3, ⟨0, 0, -1, 0, 0, 0, 0, 0⟩),
    (0xFFFFFFF9, 0, 7, ⟨0, 0, 0, 0, 0, 0, -1, 0⟩), (0xFFFFFFF8, 1, 0, ⟨0, 0, 0, 0, 0, 0, 0, -1⟩),
    (0xFFFFFFF7, 1, 1, ⟨-1, 0, 0, 0, 0, 0, 0, -1⟩), (0xFFFFFFF6, 1, 2, ⟨0, -1, 0, 0, 0, 0, 0, -1⟩)]

/-- E9 to E14 by the engine's function: whole, remainder and every slot. -/
theorem test_encoder_negative_nominals :
    ∀ e ∈ negativeNominals, (wholePart e.1).toNat = e.2.1 ∧ (remainderPart e.1).toNat = e.2.2.1 ∧
      (acdsEncode e.1 : Slots (BitVec 32)).map BitVec.toInt = e.2.2.2 := by decide

/-- E9 to E14 by both instructions, each in one step, with the source's function beside them. -/
theorem test_encode_negative_nominals :
    ∀ e ∈ negativeNominals, encZ e.1.toInt = e.2.2.2 ∧
      (∀ op ∈ [0b00#2, 0b01#2],
        (after (presenting { op := op, nominal := e.1, damage := 5, vec := 5 })).map (fun t => response t.regs) =
          some (.vector op e.2.2.2)) := by decide

/-! ## APPDB and APPDR -/

/-- Program P4, step 1, with a count of -3 in slot 1: 42_command_sequencing.md R113. -/
theorem test_appdb_acceptance :
    (after (presenting
        { op := 0b10#2, nominal := 9, damage := 1000, vec := pack (vec (-3) 0 0 0 0 0 0 3) })).map
        (fun t => ((t.regs.busy, t.regs.opr, t.regs.dmg.toInt), (t.regs.vec.map BitVec.toInt, t.regs.idx, t.regs.rep.toNat),
          response t.regs)) =
      some ((true, 0b10#2, 1000), (⟨-3, 0, 0, 0, 0, 0, 0, 3⟩, 1, 3), .none) := by decide

/-- O16: the flag stays set within the command. -/
theorem test_appdb_flag_stays_set :
    acdsApply false 9223372036854775807#64 (vec 1 0 0 0 0 0 0 (-1)) = (0, true) := by decide +kernel

/-- The most negative count asks for `2^31` repetitions (41_reducer.md R94). -/
theorem test_appdr_most_negative_count :
    (after (presenting
        { op := 0b11#2, nominal := 0, damage := 0, vec := pack (vec (-2147483648) 0 0 0 0 0 0 0) })).map
        (fun t => (t.regs.opr, t.regs.rep.toNat)) = some (0b11#2, 2147483648) := by decide

/-- A46: compounding within a slot. -/
theorem test_appdr_compounds : acdsApply true 1000#64 (vec 0 0 0 0 0 0 3 0) = (2, false) := by decide +kernel

/-! ## The other steps -/

/-- Program P2, step 3: 875 lowered by `fdiv(875, 8)`. -/
theorem test_repetition_lowers :
    (after (busyAt 0b11#2 875 (vec 2 0 0 0 0 0 0 0) 1 1)).map (fun t => (t.regs.dmg.toInt, t.regs.ovf, t.regs.rep.toNat, t.regs.idx)) =
      some (766, false, 0, 1) := by decide

/-- T16: floor division on a negative damage, raised by slot 3. -/
theorem test_repetition_floors :
    (after (busyAt 0b10#2 (-1001) (vec 0 0 1 0 0 0 0 0) 3 1)).map (fun t => t.regs.dmg.toInt) =
      some (-1377) := by decide

/-- Program P3, step 10: slot 8's count loaded. -/
theorem test_slot_advance_loads :
    (after (busyAt 0b10#2 1250 (vec 0 1 0 0 0 0 0 1) 7 0)).map (fun t => (t.regs.idx, t.regs.rep.toNat, t.regs.dmg.toInt)) =
      some (8, 1, 1250) := by decide

/-- Program P3, step 12. -/
theorem test_completion_presents :
    (after (busyAt 0b10#2 2500 (vec 0 1 0 0 0 0 0 1) 8 0)).map (fun t => (response t.regs, cmdReady t.regs)) =
      some (.damage 0b10#2 2500 false, true) := by decide

/-- Program P4, step 11: reset while busy and with a command presented. -/
theorem test_reset_wins :
    (after { busyAt 0b10#2 4000 (vec 0 0 0 0 0 0 0 3) 8 1 with
        inputs := [resetWith { op := 0, nominal := 0, damage := 0, vec := 0 }] }).map
      (fun t => (status t.regs, response t.regs, cmdReady t.regs)) = some (0b00000#5, .none, true) := by decide

/-! ## The assembler -/

/-- A line as 30_encoding.md R63 writes it. -/
theorem test_read_line :
    readLine ['A', 'P', 'P', 'D', 'R', ' ', '-', '1', ',', ' ', '[', '2', ',', '0', 'x', 'F', 'f', ']', ' ', ';', ']'] =
      .ok (some (.appdr (.lit (.dec (-1))) (.list [.dec 2, .hex 255]))) := by decide

theorem test_forwarding_needs_the_response :
    assembleLine Config.ref .none (.appdb .prevDmg .prevVec) = .error .noDamageToForward ∧
      assembleLine Config.ref (.vector 0 ⟨1, 2, 3, 4, 5, 6, 7, 8⟩) (.appdb (.lit (.dec 9)) .prevVec) =
        .ok (.appdb 9 ⟨1, 2, 3, 4, 5, 6, 7, 8⟩) := by decide

/-- Program P3 with the latched damage written out, as log 10 says: its four responses. -/
theorem test_program_p3 :
    (match runListing 16
        [.moddb (.lit (.dec 1000)) (.dec 10), .encdr (.dec 7),
          .appdr (.lit (.dec 2500)) (.list [.dec 0, .dec 0, .dec 0, .dec 0, .dec 0, .dec 0, .dec 0, .dec 1])]
        State.reset with
      | .ok (responses, _) => responses
      | .error _ => []) =
      [.vector 0b00#2 ⟨0, 1, 0, 0, 0, 0, 0, 1⟩, .damage 0b10#2 2500 false, .vector 0b01#2 ⟨0, 0, 0, 0, 0, 0, 1, 0⟩,
        .damage 0b11#2 0 false] := by decide +kernel

/-! ## A host at a busy engine, and an engine of other widths -/

/-- 60_exceptions.md R134: the command given to a busy engine is presented again until it is accepted, and the host
reads its response and not that of the older command. -/
theorem test_host_gets_own_response :
    (match issue 9 (.encdb 10) (busyAt 0b10#2 1000 (vec 0 0 0 0 0 0 0 1) 8 1) with
      | .ok t => some (response t.regs)
      | .error _ => none) = some (.vector 0b00#2 ⟨0, 1, 0, 0, 0, 0, 0, 1⟩) := by decide +kernel

/-- 40_encoder.md R79 at `NW = 4`, `CW = 2`: the most negative nominal, -8, whole 1. -/
theorem test_encoder_at_smallest_widths :
    (after ((State.resetAt ⟨4, 2, 4⟩).withFetchWord 16 0x20)).map (fun t => response t.regs) =
      some (.vector 0b00#2 ⟨0, 0, 0, 0, 0, 0, 0, -1⟩) := by decide

/-- 41_reducer.md R90 at `DW = 4`: 7 doubled is 14, which wraps to -2 and sets the flag. -/
theorem test_reducer_at_smallest_widths :
    (match issue 12 (.appdb 7 ⟨0, 0, 0, 0, 0, 0, 0, 1⟩) (State.resetAt ⟨4, 2, 4⟩) with
      | .ok t => some (response t.regs)
      | .error _ => none) = some (.damage 0b10#2 (-2) true) := by decide +kernel

/-! ## Witnesses: the hypotheses of the statements can be met, at the bounds of each clause -/

/-- The smallest widths that R6 admits, and the reference ones. -/
theorem witness_widths_ok : (Widths.mk 4 2 4).ok = true ∧ (Widths.mk 5 2 4).ok = true ∧ Config.ref.ok = true := by decide

/-- MagnitudeIsAbsoluteValue, WrapKeepsWhatFits. -/
theorem witness_positive_width : 0 < 1 ∧ fits 1 0 = true ∧ fits 1 (-1) = true ∧ fits 1 1 = false := by decide

/-- PackedVectorHasSlotInItsLane, EncoderAgreesWithSource: the slot numbers at both ends. -/
theorem witness_slot_numbers :
    (1 ≤ 1 ∧ 1 ≤ 8) ∧ (1 ≤ 8 ∧ 8 ≤ 8) ∧ (vec 1 0 0 0 0 0 0 8).get? 1 = some 1 ∧
      (vec 1 0 0 0 0 0 0 8).get? 8 = some 8 := by decide

/-- DecodeUndoesEncode, EncdbWritesSourceEncoding, EncdrWritesSourceEncoding, AppdbCopiesOperands,
AppdrCopiesOperands: the most negative operands of each kind, in the state after reset. -/
theorem witness_instr_well_formed :
    State.reset.widths.ok = true ∧ (Instr.encdb (-2 ^ 31)).wellFormed State.reset.widths = true ∧
      (Instr.encdr (2 ^ 31 - 1)).wellFormed State.reset.widths = true ∧
      (Instr.appdb (-2 ^ 63) ⟨1, 2, 3, 4, 5, 6, 7, -2 ^ 31⟩).wellFormed State.reset.widths = true ∧
      (Instr.appdr (2 ^ 63 - 1) ⟨-2 ^ 31, 2, 3, 4, 5, 6, 7, 8⟩).wellFormed State.reset.widths = true := by decide

theorem test_instr_operands_out_of_range_refused :
    (Instr.encdb (2 ^ 31)).wellFormed Config.ref = false ∧ (Instr.encdr (-2 ^ 31 - 1)).wellFormed Config.ref = false ∧
      (Instr.appdb (2 ^ 63) (Slots.fill 0)).wellFormed Config.ref = false ∧
      (Instr.appdr 0 ⟨0, 0, 0, 2 ^ 31, 0, 0, 0, 0⟩).wellFormed Config.ref = false := by decide

/-- AssemblerTakesExactlyEightCounts, AssemblerRefusesWhatDoesNotFit: each clause, at the bounds. -/
theorem witness_assembler_operands :
    (List.replicate 7 (Literal.dec 0)).length ≠ 8 ∧ (List.replicate 9 (Literal.dec 0)).length ≠ 8 ∧
      (Literal.dec (2 ^ 63 - 1)).fitsIn 64 = true ∧ (Literal.hex 0xFFFFFFFF).fitsIn 32 = true ∧
      [Literal.dec 1, .dec 2, .dec 3, .dec 4, .dec 5, .dec 6, .hex 7, .dec (-2 ^ 31)].all (Literal.fitsIn 32) = true ∧
      literalValue 32 (.hex 0xFFFFFFFF) = -1 ∧
      (Literal.dec (2 ^ 31)).fitsIn 32 = false ∧ (Literal.hex (2 ^ 64)).fitsIn 64 = false := by decide

/-- AssemblerForwardsResponses: each form of operand after each kind of response. -/
theorem witness_assembler_forwarding :
    vecOperand Config.ref (.vector 0 ⟨1, 2, 3, 4, 5, 6, 7, 8⟩) .prevVec = .ok ⟨1, 2, 3, 4, 5, 6, 7, 8⟩ ∧
      damageOperand Config.ref (.vector 0 (Slots.fill 0)) (.lit (.dec 5)) = .ok 5 ∧
      damageOperand Config.ref (.damage 2 9 false) .prevDmg = .ok 9 ∧
      vecOperand Config.ref (.damage 2 9 false) (.list (List.replicate 8 (.dec 1))) = .ok (Slots.fill 1) := by decide

/-- EncodedVectorShape, WholeAndRemainderRebuildMagnitude: slots 1 and 7 of two encodings. -/
theorem witness_encoded_slots :
    Config.ref.ok = true ∧
      (acdsEncode 1#32 : Slots (BitVec 32)).get? 1 = some 1 ∧ (acdsEncode 7#32 : Slots (BitVec 32)).get? 7 = some 1 ∧
      (1 : BitVec 32) ≠ 0#32 := by decide

/-- EncodingOfNegationIsNegated: the nominal next to the one it leaves out. -/
theorem witness_negatable_nominal : Config.ref.ok = true ∧ (0x80000001#32) ≠ BitVec.intMin 32 := by decide

/-- EncodingDeterminesNominal, each clause: a non-zero slot below 8, no such slot, two equal encodings. -/
theorem witness_encodings_to_invert :
    Config.ref.ok = true ∧ (acdsEncode 10#32 : Slots (BitVec 32)).get? 2 = some 1#32 ∧ 1#32 ≠ 0#32 ∧
      ((acdsEncode 16#32 : Slots (BitVec 32)).toList.take 7).all (· == 0#32) = true ∧
      (acdsEncode 10#32 : Slots (BitVec 32)) = acdsEncode 10#32 := by decide

/-- EncoderNeverTruncates: both signs. -/
theorem witness_nominal_signs : Config.ref.ok = true ∧ 0 ≤ (0#32).toInt ∧ (0x80000000#32).toInt < 0 := by decide

/-- DeltaIsExact, StepWrapsAndFlags, OneStepBounds: slots 1 and 8, damages of both signs, and the bounds of (c). -/
theorem witness_slots_and_damages :
    Config.ref.ok = true ∧ (1 ≤ (1#4).toNat ∧ (1#4).toNat ≤ 8) ∧ (1 ≤ (8#4).toNat ∧ (8#4).toNat ≤ 8) ∧
      0 ≤ (0#64).toInt ∧ (BitVec.allOnes 64).toInt < 0 ∧ (stepAdjust 0#64 8#4 true).2 = false ∧
      (-(2 ^ 62) ≤ (BitVec.ofInt 64 (-(2 ^ 62))).toInt ∧ (BitVec.ofInt 64 (-(2 ^ 62))).toInt < 2 ^ 62) := by decide

/-- OneStepBounds over the integers, and its last clause. -/
theorem witness_integer_damages :
    (1 ≤ 1 ∧ 1 ≤ 8) ∧ (0 : Int) ≤ 0 ∧ (-1 : Int) < 0 ∧
      pathZ .db 0 ⟨1, 0, 0, 0, 0, 0, 0, 0⟩ = [0] ∧ pathZ .dr (-1) ⟨0, 0, 0, 0, 0, 0, 0, 1⟩ = [0] := by decide

/-- DirectionFollowsTable: the three signs. -/
theorem witness_count_signs : 0 < (1#2).toInt ∧ (2#2).toInt < 0 ∧ (0#2).toInt = 0 := by decide

/-- SmallDamagesAreFixedPoints, each clause, at the largest damage slot 1 leaves and at the last slot for damage 0's
neighbours. -/
theorem witness_small_damages :
    Config.ref.ok = true ∧ (1 ≤ 1 ∧ 1 ≤ 8 ∧ (0 : Int) < 7 ∧ (7 : Int) * 1 < 8) ∧ (1 ≤ 8 ∧ 8 ≤ 8 ∧ (-1 : Int) < 0) ∧
      (0 < (7#64).toInt ∧ (7#64).toInt * ((1#4).toNat : Int) < 8) ∧
      (0 < (1#64).toInt ∧ (1#64).toInt * ((7#4).toNat : Int) < 8) := by decide

/-- FoldAgreesWithSource, ZeroDamageIsAbsorbing: a fold without overflow, at the largest damage slot 8 doubles (O1). -/
theorem witness_fold_without_overflow :
    Config.ref.ok = true ∧ acdsApply false 4611686018427387903#64 (vec 0 0 0 0 0 0 0 1) =
      (9223372036854775806#64, false) := by decide +kernel

/-- PolaritiesAreDual: a vector without the most negative count. -/
theorem witness_negatable_vector : ∀ c ∈ (vec 1 (-1) 0 0 0 0 0 2147483647).toList, c ≠ BitVec.intMin 32 := by
  simp [vec, Slots.toList]
  decide

/-- RepetitionStepAdjustsDamage: slots 1 and 8, in legal states. -/
theorem witness_repetition_states :
    (∀ s ∈ [busyAt 0b11#2 1000 (vec 2 0 0 0 0 0 0 0) 1 2, busyAt 0b10#2 1000 (vec 0 0 0 0 0 0 0 2) 8 1],
      s.widths.ok = true ∧ s.sampled.rst = false ∧ s.regs.busy = true ∧ s.regs.rep ≠ 0#s.widths.cw ∧
        s.regs.vec.get? s.regs.idx.toNat = some 2#s.widths.cw ∧ s.regs.legal) := by decide

/-- SlotAdvanceLoadsNextCount: from slot 1 and from slot 7. -/
theorem witness_slot_advance_states :
    (∀ s ∈ [busyAt 0b11#2 1000 (vec 0 5 0 0 0 0 0 0) 1 0, busyAt 0b10#2 1000 (vec 0 0 0 0 0 0 0 5) 7 0],
      s.widths.ok = true ∧ s.sampled.rst = false ∧ s.regs.busy = true ∧ s.regs.rep = 0#s.widths.cw ∧
        s.regs.idx ≠ 8#4 ∧ s.regs.vec.get? (s.regs.idx.toNat + 1) = some 5#s.widths.cw) := by decide

/-- CompletionPresentsResponse. -/
theorem witness_completion_state :
    (∀ s ∈ [busyAt 0b10#2 1000 (vec 0 0 0 0 0 0 0 1) 8 0],
      s.sampled.rst = false ∧ s.regs.busy = true ∧ s.regs.rep = 0#s.widths.cw ∧ s.regs.idx = 8#4 ∧
        s.regs.opr.getLsbD 1 = true) := by decide

/-- FoldProgressIsKept: the invariant before a repetition, a slot-advance and the completion step. -/
theorem witness_fold_progress :
    let d := BitVec.ofInt 64 1000
    let r := busyRegs 0b11#2 875 (vec 2 0 0 0 0 0 0 0) 1 1
    let a := busyRegs 0b11#2 766 (vec 2 0 0 0 0 0 0 0) 1 0
    let c := busyRegs 0b11#2 766 (vec 2 0 0 0 0 0 0 0) 8 0
    (FoldAt (w := Config.ref) d r ∧ r.rep ≠ 0#32) ∧
    (FoldAt (w := Config.ref) d a ∧ a.rep = 0#32 ∧ a.idx ≠ 8#4) ∧
    (FoldAt (w := Config.ref) d c ∧ c.rep = 0#32 ∧ c.idx = 8#4) := by decide +kernel

/-- StepRunsPresentedInstruction, both clauses, and the acceptance statements of the four ops. -/
theorem witness_presenting_states :
    (∀ op : BitVec 2,
      let s := presenting { op := op, nominal := 0, damage := 0, vec := 0 }
      s.sampled.rst = false ∧ s.regs.busy = false ∧ s.sampled.cmdValid = true) ∧
    (presenting { op := 0b01#2, nominal := 0, damage := 0, vec := 0 }).sampled.cmd.op.getLsbD 1 = false ∧
    (presenting { op := 0b10#2, nominal := 0, damage := 0, vec := 0 }).sampled.cmd.op.getLsbD 1 = true ∧
    decodeTableWord 8 0x28 = some (.encdb 10) ∧ (Instr.encdb 10).wellFormed Config.ref = true := by decide

/-- BusyEngineIgnoresCommands: ports that differ in the presented command alone. -/
theorem witness_busy_with_commands :
    let a : Inputs Config.ref := Inputs.present { op := 0b01#2, nominal := 7, damage := 0, vec := 0 }
    (busyRegs 0b10#2 1000 (vec 0 0 0 0 0 0 0 1) 8 1).busy = true ∧ a.rst = (Inputs.idle : Inputs Config.ref).rst ∧
      a ≠ Inputs.idle := by decide

/-- IdleStepChangesNoRegister. -/
theorem witness_idle_state :
    (answered []).sampled.rst = false ∧ (answered []).regs.busy = false ∧ (answered []).sampled.cmdValid = false := by
  decide

/-- ResponseLastsUntilAcceptance: legal states with a response, one for each clause. -/
theorem witness_response_states :
    let enc : Command Config.ref := { op := 0b00#2, nominal := 7, damage := 0, vec := 0 }
    let app : Command Config.ref := { op := 0b11#2, nominal := 7, damage := 0, vec := 0 }
    (answered []).legal ∧ response (answered []).regs ≠ .none ∧
      stepKind (answered []).sampled (answered []).regs = .idle ∧
      stepKind (answered [resetWith enc]).sampled (answered [resetWith enc]).regs = .reset ∧
      (stepKind (answered [Inputs.present enc]).sampled (answered [Inputs.present enc]).regs = .acceptance ∧
        enc.op.getLsbD 1 = false) ∧
      (stepKind (answered [Inputs.present app]).sampled (answered [Inputs.present app]).regs = .acceptance ∧
        app.op.getLsbD 1 = true) := by decide

/-- ResponseLastsUntilAcceptance, StepKeepsRegistersLegal: a step from such a state answers. -/
theorem witness_response_step : step (answered []) = .next (answered []) := by rfl

/-- StatusShowsControlBits, StepKeepsRegistersLegal: a legal busy engine. -/
theorem witness_legal_busy : (busyAt 0b10#2 1000 (vec 0 0 0 0 0 0 0 3) 8 3).regs.legal := by decide

/-- PortsCarryResponse: registers with each of the three responses. -/
theorem witness_responses :
    response State.reset.regs = .none ∧ response answeredRegs = .damage 0b10#2 7 true ∧
      response { answeredRegs with opr := 0b01#2 } = .vector 0b01#2 ⟨1, 0, 0, 0, 0, 0, 0, 0⟩ := by decide

/-- ResetStepClearsControlBits, with a command right after the reset step. -/
theorem witness_reset_step :
    let c : Command Config.ref := { op := 0b00#2, nominal := 7, damage := 0, vec := 0 }
    let s := answered [resetWith c, Inputs.present c]
    s.sampled.rst = true ∧ (s.afterSample).sampled.rst = false ∧ (s.afterSample).sampled.cmdValid = true := by decide

/-- AcceptedApplyReachesOutcome, MacroEncodesThenApplies. -/
theorem witness_accepted_apply :
    let c : Command Config.ref := { op := 0b11#2, nominal := 0, damage := 1000, vec := pack (vec 2 0 0 0 0 0 0 0) }
    (presenting c).widths.ok = true ∧ NoReset (presenting c) ∧ (presenting c).regs.busy = false ∧ (presenting c).sampled.cmdValid = true ∧
      (presenting c).sampled.cmd.op.getLsbD 1 = true ∧
      (acdsApply (c.op.getLsbD 0) c.damage (unpack c.vec)).2 = false := by decide +kernel

/-- ObservationMeetsContract, HostGetsOwnResponse, MacroEncodesThenApplies: after reset, and busy. -/
theorem witness_host_states :
    State.reset.legal ∧ State.reset.regs.busy = false ∧ (Instr.encdb 10).wellFormed State.reset.widths = true ∧
      (busyAt 0b10#2 1000 (vec 0 0 0 0 0 0 0 3) 8 3).legal ∧
      (busyAt 0b10#2 1000 (vec 0 0 0 0 0 0 0 3) 8 3).regs.busy = true ∧
      (AsmLine.moddb (.lit (.dec 1000)) (.dec 10)).wellFormed State.reset.widths = true := by decide

/-- UnspecifiedRegistersStayUnobserved: two engines that differ in every data register. -/
theorem witness_unspecified_registers :
    let r := { answeredRegs with rspValid := false }
    let q := resetRegs Config.ref 0
    r.busy = false ∧ q.busy = false ∧ r.rspValid = false ∧ q.rspValid = false := by
  exact ⟨rfl, rfl, rfl, rfl⟩

/-- OutcomesDependOnOwnOperands: a command, and a reset, after different pasts. -/
theorem witness_different_pasts :
    let c : Command Config.ref := { op := 0b10#2, nominal := 0, damage := 1, vec := 0 }
    answeredRegs.busy = false ∧ (resetRegs Config.ref 0).busy = false ∧ (Inputs.present c).cmdValid = true ∧
      (resetWith c).rst = true := by
  exact ⟨rfl, rfl, rfl, rfl⟩

end Sys2Proof.Tests
end

/-! Values and words: magnitudes, narrowing and shifts as integer arithmetic (00_scope.md R10, R11, R13). -/

namespace Sys2Proof.Machine

/-! ## Magnitudes -/

/-- The magnitude is the two's-complement absolute value of the library. -/
theorem absU_eq_abs {n : Nat} (v : BitVec n) : absU v = v.abs := by
  rw [absU, BitVec.abs_eq, BitVec.neg_eq_not_add]

theorem absU_of_msb_false {n : Nat} {v : BitVec n} (h : v.msb = false) : absU v = v := by
  simp [absU, h]

theorem absU_of_msb_true {n : Nat} {v : BitVec n} (h : v.msb = true) : absU v = -v := by
  simp [absU, h, BitVec.neg_eq_not_add]

/-- No width is left out: a value of width 0 is its own magnitude, 0. -/
theorem toNat_absU {n : Nat} (v : BitVec n) : ((absU v).toNat : Int) = |v.toInt| := by
  cases h : v.msb with
  | false => rw [absU_of_msb_false h, BitVec.toInt_eq_toNat_of_msb h, Nat.abs_cast]
  | true => rw [absU_of_msb_true h, BitVec.toInt_eq_neg_toNat_neg_of_msb_true h, abs_neg, Nat.abs_cast]

/-- The most negative value is its own negation, so its bits are those of its magnitude. -/
theorem absU_intMin (n : Nat) : absU (BitVec.intMin n) = BitVec.intMin n := by
  rw [absU_eq_abs, BitVec.abs_eq, BitVec.neg_intMin, ite_self]

theorem toNat_absU_intMin {n : Nat} (hn : 0 < n) : (absU (BitVec.intMin n)).toNat = 2 ^ (n - 1) := by
  have hlt : 2 ^ (n - 1) < 2 ^ n := Nat.pow_lt_pow_right Nat.one_lt_two (Nat.sub_lt hn Nat.one_pos)
  rw [absU_intMin, BitVec.toNat_intMin, Nat.mod_eq_of_lt hlt]

/-- The magnitude as bits, read off the sign bit `v[n-1]`. -/
theorem absU_eq_ite_getLsbD {n : Nat} (v : BitVec n) :
    absU v = if v.getLsbD (n - 1) = false then v else ~~~v + 1#n := by
  rw [← BitVec.msb_eq_getLsbD_last]
  cases h : v.msb <;> simp [absU, h]

/-- Settles O1: the three readings of a magnitude. -/
theorem magnitudeIsAbsoluteValue : Obligations.MagnitudeIsAbsoluteValue := by
  intro n v hn
  exact ⟨toNat_absU v, toNat_absU_intMin hn, absU_eq_ite_getLsbD v⟩

/-! ## Narrowing -/

theorem fits_iff {n : Nat} {z : Int} : fits n z = true ↔ -2 ^ (n - 1) ≤ z ∧ z < 2 ^ (n - 1) := by
  simp [fits]

/-- The signed value of every bit vector fits its width. -/
theorem fits_toInt {n : Nat} (v : BitVec n) : fits n v.toInt = true :=
  fits_iff.mpr ⟨v.le_toInt, BitVec.toInt_lt⟩

theorem toInt_wrap_of_fits {n : Nat} {z : Int} (hn : 0 < n) (h : fits n z = true) : (wrap n z).toInt = z := by
  obtain ⟨hlo, hhi⟩ := fits_iff.mp h
  exact BitVec.toInt_ofInt_eq_self hn hlo hhi

theorem fits_iff_toInt_wrap_eq {n : Nat} {z : Int} (hn : 0 < n) : fits n z = true ↔ (wrap n z).toInt = z :=
  ⟨toInt_wrap_of_fits hn, fun h => h ▸ fits_toInt (wrap n z)⟩

/-- The balanced residue of `z` modulo an even number is its ordinary residue, shifted by half the modulus. -/
theorem bmod_two_mul_eq_emod_sub (z : Int) {m : Nat} (hm : 0 < m) :
    z.bmod (2 * m) = (z + m) % (2 * m) - m := by
  have hlo : 0 ≤ (z + m) % (2 * m) := Int.emod_nonneg _ (by omega)
  have hhi : (z + m) % (2 * m) < 2 * m := Int.emod_lt_of_pos _ (by omega)
  have hdvd : (2 * m : Int) ∣ (z + m) % (2 * m) - m - z := by
    have hdiv := Int.mul_ediv_add_emod (z + m) (2 * m)
    exact ⟨-((z + m) / (2 * m)), by linarith⟩
  rw [Int.bmod_eq_iff (by omega)]
  push_cast
  exact ⟨by omega, by omega, hdvd⟩

theorem toInt_wrap {n : Nat} (hn : 0 < n) (z : Int) :
    (wrap n z).toInt = (z + 2 ^ (n - 1)) % 2 ^ n - 2 ^ (n - 1) := by
  obtain ⟨k, rfl⟩ := Nat.exists_eq_succ_of_ne_zero hn.ne'
  have hbmod := bmod_two_mul_eq_emod_sub z (Nat.two_pow_pos k)
  push_cast at hbmod
  rw [wrap, BitVec.toInt_ofInt, Nat.succ_eq_add_one, Nat.add_sub_cancel, pow_succ', pow_succ', hbmod]

/-- Settles O2: the residue formula, and the integers that narrowing keeps. -/
theorem wrapKeepsWhatFits : Obligations.WrapKeepsWhatFits := by
  intro n z hn
  exact ⟨toInt_wrap hn z, fits_iff_toInt_wrap_eq hn⟩

/-! ## Shifts by 3 -/

theorem fdiv_eight (a : Int) : fdiv a 8 = a / 8 := Int.fdiv_eq_ediv_of_nonneg a (by decide)

theorem toInt_sshiftRight_three {n : Nat} (v : BitVec n) : (v.sshiftRight 3).toInt = fdiv v.toInt 8 := by
  rw [BitVec.toInt_sshiftRight, Int.shiftRight_eq_div_pow, fdiv_eight]
  rfl

theorem toNat_ushiftRight_three {n : Nat} (v : BitVec n) : (((v >>> 3).toNat : Nat) : Int) = fdiv v.toNat 8 := by
  rw [BitVec.toNat_ushiftRight, Nat.shiftRight_eq_div_pow, fdiv_eight]
  rfl

theorem toNat_low_three_bits {n : Nat} (v : BitVec n) : (v.extractLsb' 0 3).toNat = v.toNat % 8 := by
  rw [BitVec.extractLsb'_toNat, Nat.shiftRight_zero]

/-- Settles O3: both shifts by 3, and the bits they drop. -/
theorem shiftByThreeIsFloorDivision : Obligations.ShiftByThreeIsFloorDivision := by
  intro n v
  exact ⟨toInt_sshiftRight_three v, toNat_ushiftRight_three v, toNat_low_three_bits v⟩

end Sys2Proof.Machine

/-! State and views: what a step does to the registers, which register values are legal, what the status view, the
response view and the output ports show, and which registers no observation reaches (10_state.md R23, R27 to R35;
70_reset_and_hazards.md R135). -/

namespace Sys2Proof.Machine

variable {w : Widths}

/-! ## The step as one function of the ports and the registers -/

/-- The registers after the acceptance of a command (42_command_sequencing.md R111 to R113). -/
def acceptCommand (c : Command w) (r : Regs w) : Regs w :=
  if unitBit c.op then acceptApp c.op c.damage (unpack c.vec) r else acceptEnc c.op c.nominal r

/-- The registers after a step, `k` reset steps having come before it (42_command_sequencing.md R110). -/
def nextRegs (inp : Inputs w) (k : Nat) (r : Regs w) : Regs w :=
  if inp.rst then resetRegs w k
  else if r.busy then reducerStep r
  else if inp.cmdValid then acceptCommand inp.cmd r
  else r

theorem exec_decode (s : State) (c : Command s.widths) :
    exec c.decode s = .next { s with regs := acceptCommand c s.regs } := by
  rcases exec_decode_cases s c with ⟨hunit, hexec⟩ | ⟨hunit, hexec⟩ <;> simp [acceptCommand, hunit, hexec]

theorem step_of_rst {s : State} (hrst : s.sampled.rst = true) : step s = .next (resetStep s.afterSample) := by
  simp [step, stepKind, hrst]

theorem step_of_busy {s : State} (hrst : s.sampled.rst = false) (hbusy : s.regs.busy = true) :
    step s = .next { s.afterSample with regs := reducerStep s.regs } := by
  simp only [step, stepKind, reducerKind, reducerStep, hrst, hbusy]
  split_ifs <;> simp_all

theorem step_of_cmdValid {s : State} (hrst : s.sampled.rst = false) (hbusy : s.regs.busy = false)
    (hvalid : s.sampled.cmdValid = true) : step s = exec s.sampled.cmd.decode s.afterSample := by
  simp [step, stepKind, hrst, hbusy, hvalid]

theorem step_of_idle {s : State} (hrst : s.sampled.rst = false) (hbusy : s.regs.busy = false)
    (hvalid : s.sampled.cmdValid = false) : step s = .next s.afterSample := by
  simp [step, stepKind, hrst, hbusy, hvalid]

theorem step_eq_nextRegs (s : State) :
    step s = .next
      { widths := s.widths
        regs := nextRegs s.sampled s.resets s.regs
        inputs := s.inputs.tail
        resets := if s.sampled.rst then s.resets + 1 else s.resets } := by
  cases hrst : s.sampled.rst with
  | true => simp [step_of_rst hrst, nextRegs, hrst, resetStep, State.afterSample]
  | false =>
    cases hbusy : s.regs.busy with
    | true => simp [step_of_busy hrst hbusy, nextRegs, hrst, hbusy, State.afterSample]
    | false =>
      cases hvalid : s.sampled.cmdValid with
      | true =>
        refine (step_of_cmdValid hrst hbusy hvalid).trans ((exec_decode s.afterSample s.sampled.cmd).trans ?_)
        simp [nextRegs, hrst, hbusy, hvalid, State.afterSample]
      | false => simp [step_of_idle hrst hbusy hvalid, nextRegs, hrst, hbusy, hvalid, State.afterSample]

/-! ## Legal registers -/

theorem legal_of_not_busy {r : Regs w} (hbusy : r.busy = false) (hovf : r.ovf = true → unitBit r.opr = true) :
    r.legal :=
  ⟨fun h => absurd h (by simp [hbusy]), hovf⟩

theorem resetRegs_legal (k : Nat) : (resetRegs w k).legal :=
  legal_of_not_busy (resetRegs_busy k) (by simp)

/-- `REP` only falls, and the slot it counts for stays. -/
theorem repetitionStep_legal {r : Regs w} (h : r.legal) (hbusy : r.busy = true) (hrep : r.rep ≠ 0#w.cw) :
    (repetitionStep r).legal := by
  obtain ⟨hvalid, hunit, hlo, hhi, hle⟩ := h.1 hbusy
  have hpred := (toNat_pred hrep).1
  refine ⟨fun _ => ⟨hvalid, hunit, hlo, hhi, ?_⟩, fun _ => hunit⟩
  simp only [repetitionStep_rep, repetitionStep_vec, repetitionStep_idx]
  omega

/-- The next slot is in range because the present one is not the last. -/
theorem slotAdvanceStep_legal {r : Regs w} (h : r.legal) (hbusy : r.busy = true) (hidx : r.idx ≠ 8#4) :
    (slotAdvanceStep r).legal := by
  obtain ⟨hvalid, hunit, hlo, hhi, -⟩ := h.1 hbusy
  have hsucc : (slotAdvanceStep r).idx.toNat = r.idx.toNat + 1 := toNat_slot_succ hhi
  have hlt : r.idx.toNat ≠ 8 := fun h8 => hidx (BitVec.eq_of_toNat_eq h8)
  exact ⟨fun _ => ⟨hvalid, hunit, by omega, by omega, le_rfl⟩, fun _ => hunit⟩

theorem completionStep_legal {r : Regs w} (h : r.legal) : (completionStep r).legal :=
  legal_of_not_busy (completionStep_busy r) h.2

theorem acceptEnc_legal {r : Regs w} (op : BitVec 2) (n : BitVec w.nw) (hbusy : r.busy = false) :
    (acceptEnc op n r).legal :=
  legal_of_not_busy hbusy (by simp)

theorem acceptApp_legal (r : Regs w) {op : BitVec 2} (d : BitVec w.dw) (v : Slots (BitVec w.cw))
    (hunit : unitBit op = true) : (acceptApp op d v r).legal :=
  ⟨fun _ => ⟨rfl, hunit, by simp, by simp, by simp⟩, fun _ => hunit⟩

theorem step_regs_legal {s t : State} (h : s.regs.legal) (hstep : step s = .next t) : t.regs.legal := by
  rcases step_cases hstep with ⟨-, rfl⟩ | ⟨-, hbusy, hrep, rfl⟩ | ⟨-, hbusy, -, hidx, rfl⟩ | ⟨-, -, -, -, rfl⟩ |
    ⟨-, hbusy, -, -, rfl⟩ | ⟨-, -, -, hunit, rfl⟩ | ⟨-, -, -, rfl⟩
  · exact resetRegs_legal s.resets
  · exact repetitionStep_legal h hbusy hrep
  · exact slotAdvanceStep_legal h hbusy hidx
  · exact completionStep_legal h
  · exact acceptEnc_legal _ _ hbusy
  · exact acceptApp_legal s.regs _ _ hunit
  · exact h

theorem step_widths {s t : State} (hstep : step s = .next t) : t.widths = s.widths := by
  cases (step_eq_nextRegs s).symm.trans hstep
  rfl

/-- Settles O48: each kind of step keeps the registers legal. -/
theorem stepKeepsRegistersLegal : Obligations.StepKeepsRegistersLegal :=
  fun _ _ hlegal hstep => ⟨step_regs_legal hlegal hstep, step_widths hstep⟩

/-! ## The response view -/

theorem response_eq_none_iff {r : Regs w} : response r = .none ↔ r.rspValid = false := by
  unfold response
  split_ifs <;> simp_all

theorem response_eq_vector_iff {r : Regs w} {op : BitVec 2} {v : Slots Int} :
    response r = .vector op v ↔
      r.rspValid = true ∧ unitBit r.opr = false ∧ r.opr = op ∧ r.rvec.map BitVec.toInt = v := by
  unfold response
  split_ifs <;> simp_all

theorem response_eq_damage_iff {r : Regs w} {op : BitVec 2} {d : Int} {o : Bool} :
    response r = .damage op d o ↔
      r.rspValid = true ∧ unitBit r.opr = true ∧ r.opr = op ∧ r.dmg.toInt = d ∧ r.ovf = o := by
  unfold response
  split_ifs <;> simp_all

/-! ## The status view -/

theorem status_ovf (r : Regs w) : (status r).getLsbD 4 = r.ovf := by
  rw [status, BitVec.getLsbD_append, BitVec.getLsbD_append, BitVec.getLsbD_append]
  simp

theorem status_opr (r : Regs w) : (status r).extractLsb' 2 2 = r.opr := by
  rw [status, BitVec.extractLsb'_append_eq_of_le (by decide), BitVec.extractLsb'_append_eq_of_le (by decide)]
  exact BitVec.extractLsb'_append_eq_right

theorem status_rspValid (r : Regs w) : (status r).getLsbD 1 = r.rspValid := by
  rw [status, BitVec.getLsbD_append, BitVec.getLsbD_append]
  simp

theorem status_busy (r : Regs w) : (status r).getLsbD 0 = r.busy := by
  rw [status, BitVec.getLsbD_append]
  simp

theorem status_eq_zero {r : Regs w} (hbusy : r.busy = false) (hvalid : r.rspValid = false) (hopr : r.opr = 0b00#2)
    (hovf : r.ovf = false) : status r = 0b00000#5 := by
  simp [status, hbusy, hvalid, hopr, hovf]

theorem not_busy_eq_cmdReady (r : Regs w) : (!cmdReady r) = r.busy := by
  simp [cmdReady]

theorem not_busy_and_rspValid {r : Regs w} (h : r.legal) : ¬ (r.busy = true ∧ r.rspValid = true) := by
  rintro ⟨hbusy, hvalid⟩
  obtain ⟨hnone, -⟩ := h.1 hbusy
  exact absurd hvalid (by simp [hnone])

/-- Settles O50: each bit of STATUS in its place. -/
theorem statusShowsControlBits : Obligations.StatusShowsControlBits := by
  intro w r
  rw [not_busy_eq_cmdReady, status_ovf, status_opr, status_rspValid, status_busy]
  exact ⟨rfl, rfl, rfl, rfl, rfl, rfl, not_busy_and_rspValid⟩

/-! ## Reset -/

theorem resetAt_legal (w : Widths) : (State.resetAt w).regs.legal :=
  legal_of_not_busy resetAt_busy (by simp)

/-- Settles O49: the four control bits of the reset state, and what follows from them. -/
theorem resetStateIsIdleAndLegal : Obligations.ResetStateIsIdleAndLegal := by
  refine ⟨fun w => ?_, rfl, by decide, resetAt_legal Config.ref⟩
  exact ⟨rfl, resetAt_legal w, resetAt_busy, resetAt_rspValid, resetAt_opr, resetAt_ovf,
    status_eq_zero resetAt_busy resetAt_rspValid resetAt_opr resetAt_ovf, response_eq_none_iff.mpr resetAt_rspValid,
    by simp [cmdReady]⟩

/-- Settles O51: the registers the reset step leaves, after which a presented command is accepted. -/
theorem resetStepClearsControlBits : Obligations.ResetStepClearsControlBits := by
  intro s hrst
  exact ⟨resetRegs s.widths s.resets, step_of_rst hrst, rfl, rfl, rfl, rfl, status_eq_zero rfl rfl rfl rfl,
    response_eq_none_iff.mpr rfl, rfl, fun hrst' hvalid => step_of_cmdValid hrst' rfl hvalid⟩

/-! ## Lanes of a packed vector (30_encoding.md R54) -/

section Lanes

variable {cw : Nat}

theorem lane_or (a b : BitVec (8 * cw)) (k : Nat) : lane (a ||| b) k = lane a k ||| lane b k :=
  BitVec.extractLsb'_or

theorem lane_inLane_same (c : BitVec cw) {k : Nat} (hk : k < 8) : lane (inLane c k) k = c := by
  have hfit : (k + 1) * cw ≤ 8 * cw := Nat.mul_le_mul_right cw hk
  rw [Nat.succ_mul] at hfit
  ext b hb
  have hbus : k * cw + b < 8 * cw := by omega
  simp [lane, inLane, hbus, BitVec.getLsbD_eq_getElem hb]

/-- A count lies below its lane's end, so another lane of its bus is zero. -/
theorem lane_inLane_of_ne (c : BitVec cw) {j k : Nat} (hjk : j ≠ k) : lane (inLane c j) k = 0#cw := by
  ext b hb
  rcases Nat.lt_or_gt_of_ne hjk with hlt | hgt
  · have hle : (j + 1) * cw ≤ k * cw := Nat.mul_le_mul_right cw hlt
    rw [Nat.succ_mul] at hle
    simp [lane, inLane, BitVec.getLsbD_of_ge c (k * cw + b - j * cw) (by omega)]
  · have hle : (k + 1) * cw ≤ j * cw := Nat.mul_le_mul_right cw hgt
    rw [Nat.succ_mul] at hle
    have hbelow : k * cw + b < j * cw := by omega
    simp [lane, inLane, hbelow]

theorem unpack_pack (v : Slots (BitVec cw)) : unpack (pack v) = v := by
  simp [unpack, Slots.ofSlot, pack, lane_or, lane_inLane_same, lane_inLane_of_ne]

end Lanes

/-! ## The output ports and the response word -/

theorem outputs_of_vector {r : Regs w} {op : BitVec 2} {v : Slots Int} (h : response r = .vector op v) :
    (outputs r).rspOp = op ∧ (outputs r).rspVec = pack r.rvec ∧ r.rvec.map BitVec.toInt = v ∧ unitBit op = false := by
  obtain ⟨hvalid, hunit, rfl, hvec⟩ := response_eq_vector_iff.mp h
  simp [outputs, hvalid, hunit, hvec]

theorem outputs_of_damage {r : Regs w} {op : BitVec 2} {d : Int} {o : Bool} (h : response r = .damage op d o) :
    (outputs r).rspOp = op ∧ (outputs r).rspDamage.toInt = d ∧ (outputs r).rspOvf = o ∧ unitBit op = true := by
  obtain ⟨hvalid, hunit, rfl, rfl, rfl⟩ := response_eq_damage_iff.mp h
  simp [outputs, hvalid, hunit]

theorem responseWord_rspValid (o : Outputs w) : (responseWord o).getLsbD 0 = o.rspValid := by
  simp [responseWord, BitVec.getElem_append]

theorem responseWord_rspOp (o : Outputs w) : (responseWord o).extractLsb' 1 2 = o.rspOp := by
  rw [responseWord, BitVec.extractLsb'_append_eq_of_le (by decide)]
  exact BitVec.extractLsb'_append_eq_right

theorem responseWord_rspOvf (o : Outputs w) : (responseWord o).getLsbD 3 = o.rspOvf := by
  simp [responseWord, BitVec.getElem_append]

/-- The fields of the response word above its four low bits. -/
theorem responseWord_extractLsb'_add_four (o : Outputs w) (start len : Nat) :
    (responseWord o).extractLsb' (start + 4) len = (o.rspVec ++ o.rspDamage).extractLsb' start len := by
  rw [responseWord, BitVec.extractLsb'_append_eq_of_le (by omega), BitVec.extractLsb'_append_eq_of_le (by omega),
    BitVec.extractLsb'_append_eq_of_le (by omega)]
  rfl

/-- Settles O52: each kind of response on its ports, and each port in its place in the response word. -/
theorem portsCarryResponse : Obligations.PortsCarryResponse := by
  intro w r
  refine ⟨rfl, rfl, response_eq_none_iff.symm, fun op v h => ?_, fun op d o h => outputs_of_damage h, fun o => ?_⟩
  · obtain ⟨hop, hpins, hvec, hunit⟩ := outputs_of_vector h
    exact ⟨hop, by rw [hpins, unpack_pack, hvec], hpins, hunit⟩
  · have hdamage := responseWord_extractLsb'_add_four o 0 w.dw
    have hvec := responseWord_extractLsb'_add_four o w.dw (8 * w.cw)
    rw [BitVec.extractLsb'_append_eq_right, Nat.zero_add] at hdamage
    rw [BitVec.extractLsb'_append_eq_left] at hvec
    exact ⟨responseWord_rspValid o, responseWord_rspOp o, responseWord_rspOvf o, hdamage, hvec⟩

/-! ## What the host cannot tell apart (10_state.md R34) -/

/-- Two register values that look the same to the host and will go on doing so: the same `BUSY` and the same response
and, while an APP* is in progress, the same registers but for `RVEC`, which its damage response will not show. -/
structure SameToHost (r q : Regs w) : Prop where
  busy_eq : q.busy = r.busy
  response_eq : response q = response r
  unitBit_of_busy : r.busy = true → unitBit r.opr = true
  eq_of_busy : r.busy = true → q = { r with rvec := q.rvec }

theorem response_acceptEnc {op : BitVec 2} (n : BitVec w.nw) (r : Regs w) (hunit : unitBit op = false) :
    response (acceptEnc op n r) = .vector op ((acdsEncode n : Slots (BitVec w.cw)).map BitVec.toInt) :=
  response_eq_vector_iff.mpr ⟨rfl, hunit, rfl, rfl⟩

theorem response_withRvec {r : Regs w} (v : Slots (BitVec w.cw)) (hunit : unitBit r.opr = true) :
    response { r with rvec := v } = response r := by
  simp [response, hunit]

theorem sameToHost_withRvec {r : Regs w} (v : Slots (BitVec w.cw)) (hunit : unitBit r.opr = true) :
    SameToHost r { r with rvec := v } :=
  ⟨rfl, response_withRvec v hunit, fun _ => hunit, fun _ => rfl⟩

theorem sameToHost_of_not_busy {r q : Regs w} (hr : r.busy = false) (hq : q.busy = false)
    (hresponse : response q = response r) : SameToHost r q :=
  ⟨hq.trans hr.symm, hresponse, fun h => absurd h (by simp [hr]), fun h => absurd h (by simp [hr])⟩

@[simp] theorem reducerStep_opr (r : Regs w) : (reducerStep r).opr = r.opr := by
  unfold reducerStep
  split_ifs <;> rfl

/-- No reducer step reads or writes `RVEC`. -/
theorem reducerStep_withRvec (r : Regs w) (v : Slots (BitVec w.cw)) :
    reducerStep { r with rvec := v } = { reducerStep r with rvec := v } := by
  unfold reducerStep
  split_ifs <;> rfl

theorem sameToHost_reducerStep {r q : Regs w} (h : SameToHost r q) (hbusy : r.busy = true) :
    SameToHost (reducerStep r) (reducerStep q) := by
  have hq : reducerStep q = { reducerStep r with rvec := q.rvec } := by
    rw [← reducerStep_withRvec, ← h.eq_of_busy hbusy]
  rw [hq]
  exact sameToHost_withRvec _ (by simpa using h.unitBit_of_busy hbusy)

/-- After an acceptance the older registers show in nothing: an ENC* answers from its operand, an APP* copies its
operands and starts the fold at the first slot. -/
theorem sameToHost_acceptCommand {r q : Regs w} (c : Command w) (hr : r.busy = false) (hq : q.busy = false) :
    SameToHost (acceptCommand c r) (acceptCommand c q) := by
  unfold acceptCommand
  split_ifs with hunit
  · exact sameToHost_withRvec (r := acceptApp c.op c.damage (unpack c.vec) r) q.rvec hunit
  · have henc : unitBit c.op = false := by simpa using hunit
    exact sameToHost_of_not_busy hr hq (by rw [response_acceptEnc _ _ henc, response_acceptEnc _ _ henc])

/-- A reset step leaves an engine that is ready and shows nothing, whatever came before. -/
theorem sameToHost_resetRegs (m n : Nat) : SameToHost (resetRegs w m) (resetRegs w n) :=
  sameToHost_of_not_busy rfl rfl rfl

theorem sameToHost_nextRegs {r q : Regs w} (h : SameToHost r q) (inp : Inputs w) (m n : Nat) :
    SameToHost (nextRegs inp m r) (nextRegs inp n q) := by
  unfold nextRegs
  rw [h.busy_eq]
  split_ifs with hrst hbusy hvalid
  · exact sameToHost_resetRegs m n
  · exact sameToHost_reducerStep h hbusy
  · have hr : r.busy = false := by simpa using hbusy
    exact sameToHost_acceptCommand inp.cmd hr (h.busy_eq.trans hr)
  · exact h

theorem SameToHost.cmdReady_eq {r q : Regs w} (h : SameToHost r q) : cmdReady q = cmdReady r := by
  rw [cmdReady, cmdReady, h.busy_eq]

theorem views_succ {s t : State} (k : Nat) (h : step s = .next t) :
    views (k + 1) s = (response t.regs, cmdReady t.regs) :: views k t := by
  simp [views, h]

theorem views_eq_of_sameToHost (k : Nat) {r q : Regs w} {inputs : List (Inputs w)} {m n : Nat} (h : SameToHost r q) :
    views k ⟨w, r, inputs, m⟩ = views k ⟨w, q, inputs, n⟩ := by
  induction k generalizing r q inputs m n with
  | zero => rfl
  | succ k ih =>
    have hnext := sameToHost_nextRegs h (inputs.headD Inputs.idle) m n
    rw [views_succ k (step_eq_nextRegs _), views_succ k (step_eq_nextRegs _)]
    congr 1
    · exact Prod.ext hnext.response_eq.symm hnext.cmdReady_eq.symm
    · exact ih hnext

/-- Settles O55: two engines that are ready and show nothing look the same to the host. -/
theorem unspecifiedRegistersStayUnobserved : Obligations.UnspecifiedRegistersStayUnobserved := by
  intro k w r q inputs m n hr hq hrv hqv
  have hresponse : response q = response r := by rw [response_eq_none_iff.mpr hrv, response_eq_none_iff.mpr hqv]
  exact views_eq_of_sameToHost k (sameToHost_of_not_busy hr hq hresponse)

end Sys2Proof.Machine

/-! Ports and ordering: from the next command or reset on, neither the host's view nor the observation of a run depends
on what came before (20_memory.md R46, 42_command_sequencing.md R119). -/

namespace Sys2Proof.Machine

variable {w : Widths}

/-! ## The kind of the next step -/

/-- The kind of a step does not depend on `RVEC`. -/
theorem stepKind_withRvec (inp : Inputs w) (r : Regs w) (v : Slots (BitVec w.cw)) :
    stepKind inp { r with rvec := v } = stepKind inp r := rfl

/-- While no reducer step is due, the ports alone choose the kind of the step. -/
theorem stepKind_of_not_busy (inp : Inputs w) {r : Regs w} (hr : r.busy = false) :
    stepKind inp r = if inp.rst then .reset else if inp.cmdValid then .acceptance else .idle := by
  simp [stepKind, hr]

theorem stepKind_eq_of_not_busy (inp : Inputs w) {r q : Regs w} (hr : r.busy = false) (hq : q.busy = false) :
    stepKind inp q = stepKind inp r := by
  rw [stepKind_of_not_busy inp hr, stepKind_of_not_busy inp hq]

/-- The host's ignorance of the data registers extends to the kind of the next step: `IDX` and `REP`, which choose
among the reducer steps, are the same in both wherever they are read. -/
theorem SameToHost.stepKind_eq {r q : Regs w} (h : SameToHost r q) (inp : Inputs w) :
    stepKind inp q = stepKind inp r := by
  cases hbusy : r.busy with
  | false => exact stepKind_eq_of_not_busy inp hbusy (h.busy_eq.trans hbusy)
  | true => rw [h.eq_of_busy hbusy, stepKind_withRvec]

/-! ## The observation, step by step -/

/-- Whether a step of this kind ends a command, `c` being what the command ports present: the acceptance of an
ENC*, or the completion of an APP* (42_command_sequencing.md R118). -/
def endsCommand (kind : StepKind) (c : Command w) : Bool :=
  match kind with
  | .acceptance => !unitBit c.op
  | .completion => true
  | .reset | .repetition | .slotAdvance | .idle => false

/-- A step makes the response that it leaves observable exactly when it ends a command. -/
theorem outcome_of_step {s t : State} (h : step s = .next t) :
    outcome s = bif endsCommand (stepKind s.sampled s.regs) s.sampled.cmd then some (response t.regs) else none := by
  simp only [outcome, h, endsCommand]
  cases stepKind s.sampled s.regs with
  | acceptance => cases unitBit s.sampled.cmd.op <;> simp
  | reset | repetition | slotAdvance | completion | idle => rfl

theorem observation_succ {s t : State} (k : Nat) (h : step s = .next t) :
    observation (k + 1) s = (outcome s).toList ++ observation k t := by
  simp [observation, h]

/-! ## What comes before a command or a reset -/

/-- A reset or an acceptance leaves nothing of an idle engine's past that the host will ever see. -/
theorem sameToHost_nextRegs_of_not_busy {r q : Regs w} {inp : Inputs w} (m n : Nat) (hr : r.busy = false)
    (hq : q.busy = false) (hinp : inp.rst = true ∨ inp.cmdValid = true) :
    SameToHost (nextRegs inp m r) (nextRegs inp n q) := by
  cases hrst : inp.rst with
  | true => simpa [nextRegs, hrst] using sameToHost_resetRegs m n
  | false =>
    have hvalid : inp.cmdValid = true := hinp.resolve_left (by simp [hrst])
    simpa [nextRegs, hrst, hr, hq, hvalid] using sameToHost_acceptCommand inp.cmd hr hq

/-- The first step may start from registers that the host can tell apart: it is enough that the two steps are of one
kind and end in registers that look the same. -/
theorem observation_eq_of_next_sameToHost (k : Nat) {r q : Regs w} {inputs : List (Inputs w)} {m n : Nat}
    (hkind : stepKind (inputs.headD Inputs.idle) q = stepKind (inputs.headD Inputs.idle) r)
    (hnext : SameToHost (nextRegs (inputs.headD Inputs.idle) m r) (nextRegs (inputs.headD Inputs.idle) n q)) :
    observation k ⟨w, r, inputs, m⟩ = observation k ⟨w, q, inputs, n⟩ := by
  induction k generalizing r q inputs m n with
  | zero => rfl
  | succ k ih =>
    have houtcome : outcome ⟨w, r, inputs, m⟩ = outcome ⟨w, q, inputs, n⟩ := by
      rw [outcome_of_step (step_eq_nextRegs _), outcome_of_step (step_eq_nextRegs _)]
      simp only [State.sampled, hkind, hnext.response_eq]
    rw [observation_succ k (step_eq_nextRegs _), observation_succ k (step_eq_nextRegs _), houtcome]
    congr 1
    exact ih (hnext.stepKind_eq _) (sameToHost_nextRegs hnext _ _ _)

theorem views_eq_of_next_sameToHost (k : Nat) {r q : Regs w} {inputs : List (Inputs w)} {m n : Nat}
    (hnext : SameToHost (nextRegs (inputs.headD Inputs.idle) m r) (nextRegs (inputs.headD Inputs.idle) n q)) :
    views k ⟨w, r, inputs, m⟩ = views k ⟨w, q, inputs, n⟩ := by
  cases k with
  | zero => rfl
  | succ k =>
    rw [views_succ k (step_eq_nextRegs _), views_succ k (step_eq_nextRegs _)]
    congr 1
    · exact Prod.ext hnext.response_eq.symm hnext.cmdReady_eq.symm
    · exact views_eq_of_sameToHost k hnext

/-- Settles O56: after the first step the two engines look the same to the host, and the kind of that step is chosen by
the ports. -/
theorem outcomesDependOnOwnOperands : Obligations.OutcomesDependOnOwnOperands := by
  intro k w r q a rest m n hr hq ha
  have hnext : SameToHost (nextRegs a m r) (nextRegs a n q) := sameToHost_nextRegs_of_not_busy m n hr hq ha
  exact ⟨views_eq_of_next_sameToHost k hnext,
    observation_eq_of_next_sameToHost k (stepKind_eq_of_not_busy a hr hq) hnext⟩

end Sys2Proof.Machine

/-! Encoding: packed vectors, command words, and the decoder as the encoder's inverse (30_encoding.md R54, R55, R57 to
R59). -/

namespace Sys2Proof.Machine

/-! ## Packed vectors -/

section Packed

variable {cw : Nat}

theorem get?_ofSlot {α : Type} (f : Nat → α) {i : Nat} (h1 : 1 ≤ i) (h8 : i ≤ 8) :
    (Slots.ofSlot f).get? i = some (f i) := by
  interval_cases i <;> rfl

theorem get?_unpack (b : BitVec (8 * cw)) {i : Nat} (h1 : 1 ≤ i) (h8 : i ≤ 8) :
    (unpack b).get? i = some (lane b (i - 1)) :=
  get?_ofSlot (fun i => lane b (i - 1)) h1 h8

theorem getLsbD_lane (b : BitVec (8 * cw)) (k j : Nat) :
    (lane b k).getLsbD j = (decide (j < cw) && b.getLsbD (k * cw + j)) := by
  rw [lane, BitVec.getLsbD_extractLsb']

/-- Bit `j` of a packed vector is bit `j % CW` of lane `j / CW`, so the eight lanes are all of it. -/
theorem eq_of_lane_eq {a b : BitVec (8 * cw)} (h : ∀ k < 8, lane a k = lane b k) : a = b := by
  refine BitVec.eq_of_getLsbD_eq fun j hj => ?_
  have hcw : 0 < cw := by omega
  have hbit := congrArg (·.getLsbD (j % cw)) (h (j / cw) (Nat.div_lt_of_lt_mul (by rwa [Nat.mul_comm])))
  simpa only [getLsbD_lane, Nat.mod_lt j hcw, decide_true, Bool.true_and, Nat.div_add_mod'] using hbit

theorem unpack_injective : Function.Injective (unpack : BitVec (8 * cw) → Slots (BitVec cw)) := by
  intro a b h
  refine eq_of_lane_eq fun k hk => ?_
  have hslot := congrArg (·.get? (k + 1)) h
  simpa only [get?_unpack _ (Nat.le_add_left 1 k) hk, Option.some.injEq, Nat.add_sub_cancel] using hslot

theorem pack_unpack (b : BitVec (8 * cw)) : pack (unpack b) = b :=
  unpack_injective (unpack_pack (unpack b))

theorem get?_eq_lane_pack (v : Slots (BitVec cw)) {i : Nat} (h1 : 1 ≤ i) (h8 : i ≤ 8) :
    v.get? i = some (lane (pack v) (i - 1)) := by
  rw [← get?_unpack (pack v) h1 h8, unpack_pack]

/-- A count in a lane of the bus loses no bit. -/
theorem toNat_inLane (c : BitVec cw) {k : Nat} (hk : k < 8) : (inLane c k).toNat = c.toNat <<< (k * cw) := by
  have hfit : cw + k * cw ≤ 8 * cw := by
    rw [Nat.add_comm, ← Nat.succ_mul]
    exact Nat.mul_le_mul_right cw hk
  have hlt : c.toNat <<< (k * cw) < 2 ^ (8 * cw) := by
    calc c.toNat <<< (k * cw) < 2 ^ (cw + k * cw) := by
          rw [Nat.shiftLeft_eq, Nat.pow_add]
          exact Nat.mul_lt_mul_of_pos_right c.isLt (Nat.two_pow_pos _)
      _ ≤ 2 ^ (8 * cw) := Nat.pow_le_pow_right Nat.two_pos hfit
  rw [inLane, BitVec.toNat_shiftLeft, BitVec.toNat_setWidth_of_le (by omega), Nat.mod_eq_of_lt hlt]

theorem toNat_pack (v : Slots (BitVec cw)) :
    (pack v).toNat = (v.c8 ++ v.c7 ++ v.c6 ++ v.c5 ++ v.c4 ++ v.c3 ++ v.c2 ++ v.c1).toNat := by
  simp [pack, toNat_inLane, BitVec.toNat_append, Nat.shiftLeft_or_distrib, ← Nat.shiftLeft_add, Nat.succ_mul,
    Nat.add_assoc, Nat.or_assoc]

end Packed

/-- Settles O4: slots and lanes, the concatenation, both inverses, and the rule's example. -/
theorem packedVectorHasSlotInItsLane : Obligations.PackedVectorHasSlotInItsLane := by
  intro cw v b
  exact ⟨fun _ h1 h8 => get?_eq_lane_pack v h1 h8, toNat_pack v, unpack_pack v, pack_unpack b, by decide⟩

/-! ## Command words -/

section Words

variable {w : Widths}

/-- Each field of the command in a word is a range of the word's bits. -/
theorem ofWord_eq_extract (x : BitVec w.commandBits) :
    (Command.ofWord x : Command w) =
      { op := x.extractLsb' 0 2
        nominal := x.extractLsb' 2 w.nw
        damage := x.extractLsb' (w.nw + 2) w.dw
        vec := x.extractLsb' (w.nw + w.dw + 2) (8 * w.cw) } := rfl

theorem ofWord_toWord (c : Command w) : Command.ofWord c.toWord = c := by
  obtain ⟨op, nominal, damage, vec⟩ := c
  rw [ofWord_eq_extract, Command.mk.injEq]
  refine ⟨BitVec.extractLsb'_append_eq_right, ?_, ?_, ?_⟩ <;> simp only [Command.toWord]
  · rw [BitVec.extractLsb'_append_eq_of_le le_rfl, Nat.sub_self, BitVec.extractLsb'_append_eq_right]
  · rw [BitVec.extractLsb'_append_eq_of_le (by omega), Nat.add_sub_cancel,
      BitVec.extractLsb'_append_eq_of_le le_rfl, Nat.sub_self, BitVec.extractLsb'_append_eq_right]
  · rw [BitVec.extractLsb'_append_eq_of_le (by omega), Nat.add_sub_cancel,
      BitVec.extractLsb'_append_eq_of_le (by omega), Nat.add_sub_cancel_left, BitVec.extractLsb'_append_eq_left]

/-- The four fields lie next to each other and fill the word. -/
theorem toWord_ofWord (x : BitVec w.commandBits) : (Command.ofWord x : Command w).toWord = x := by
  rw [ofWord_eq_extract, Command.toWord,
    BitVec.extractLsb'_append_extractLsb'_eq_extractLsb' (by omega),
    BitVec.extractLsb'_append_extractLsb'_eq_extractLsb' (by omega),
    BitVec.extractLsb'_append_extractLsb'_eq_extractLsb' (by omega), BitVec.extractLsb'_eq_self]

end Words

/-! ## The decoder -/

section Decoder

variable {w : Widths}

theorem decode_of_lt {x : Nat} (h : x < 2 ^ w.commandBits) :
    decode w x = .ok (Command.ofNat (w := w) x).decode := by
  rw [decode, if_pos (Nat.shiftRight_eq_zero x _ h)]

theorem decode_of_ge {x : Nat} (h : 2 ^ w.commandBits ≤ x) : decode w x = .error .widerThanCommandWord := by
  have hne : x >>> w.commandBits ≠ 0 := by
    rw [Nat.shiftRight_eq_div_pow]
    exact (Nat.div_pos h (Nat.two_pow_pos _)).ne'
  rw [decode, if_neg hne]

theorem exists_decode_eq_ok_iff (w : Widths) (x : Nat) : (∃ i, decode w x = .ok i) ↔ x < 2 ^ w.commandBits := by
  refine ⟨fun ⟨i, hi⟩ => ?_, fun h => ⟨_, decode_of_lt h⟩⟩
  by_contra hge
  cases hi.symm.trans (decode_of_ge (Nat.le_of_not_lt hge))

theorem decode_toNat (x : BitVec w.commandBits) : decode w x.toNat = .ok (Command.ofWord (w := w) x).decode :=
  decode_of_lt x.isLt

theorem op_cases (op : BitVec 2) : op = 0b00#2 ∨ op = 0b01#2 ∨ op = 0b10#2 ∨ op = 0b11#2 := by
  revert op; decide

theorem decode_op (c : Command w) : c.decode.op = c.op := by
  obtain ⟨op, n, d, v⟩ := c
  rcases op_cases op with rfl | rfl | rfl | rfl <;> simp [Command.decode, Instr.op]

theorem all_fits_map_toInt {cw : Nat} (v : Slots (BitVec cw)) : (v.map BitVec.toInt).toList.all (fits cw) = true := by
  simp [Slots.toList, Slots.map, fits_toInt]

/-- What a bundle's fields hold fits their widths: a bundle decodes to a well-formed instruction. -/
theorem decode_wellFormed (c : Command w) : c.decode.wellFormed w = true := by
  unfold Command.decode
  split_ifs <;> simp [Instr.wellFormed, fits_toInt, all_fits_map_toInt]

theorem command_decode (c : Command w) :
    c.decode.command w =
      if c.op.getLsbD 1 then { c with nominal := 0#w.nw } else { c with damage := 0#w.dw, vec := 0#(8 * w.cw) } := by
  obtain ⟨op, n, d, v⟩ := c
  rcases op_cases op with rfl | rfl | rfl | rfl <;> simp [Command.decode, Instr.command, pack_unpack]

theorem map_toInt_map_wrap {cw : Nat} {v : Slots Int} (hcw : 0 < cw) (h : v.toList.all (fits cw) = true) :
    (v.map (wrap cw)).map BitVec.toInt = v := by
  obtain ⟨c1, c2, c3, c4, c5, c6, c7, c8⟩ := v
  simp only [Slots.toList, List.all_cons, List.all_nil, Bool.and_true, Bool.and_eq_true] at h
  obtain ⟨h1, h2, h3, h4, h5, h6, h7, h8⟩ := h
  simp [Slots.map, toInt_wrap_of_fits hcw, *]

/-- Every width that R6 admits has bits. -/
theorem widths_pos (h : w.ok = true) : 0 < w.nw ∧ 0 < w.cw ∧ 0 < w.dw := by
  simp only [Widths.ok, Bool.and_eq_true, decide_eq_true_eq] at h
  omega

theorem decode_command {i : Instr} (hok : w.ok = true) (hwf : i.wellFormed w = true) :
    (i.command w).decode = i := by
  obtain ⟨hnw, hcw, hdw⟩ := widths_pos hok
  cases i with
  | encdb n | encdr n =>
    have hn : fits w.nw n = true := hwf
    simp [Instr.command, Command.decode, toInt_wrap_of_fits hnw hn]
  | appdb d v | appdr d v =>
    obtain ⟨hd, hv⟩ : fits w.dw d = true ∧ v.toList.all (fits w.cw) = true := by
      simpa only [Instr.wellFormed, Bool.and_eq_true] using hwf
    simp [Instr.command, Command.decode, toInt_wrap_of_fits hdw hd, unpack_pack, map_toInt_map_wrap hcw hv]

end Decoder

/-- Settles O5: the word gives the bundle back, and the bundle the instruction. -/
theorem decodeUndoesEncode : Obligations.DecodeUndoesEncode := by
  intro w i hok hwf
  rw [decode_toNat, encode, ofWord_toWord, decode_command hok hwf]

/-- Settles O6: the numbers that decode, the word as its fields, and the bundle an instruction came from. -/
theorem decodeReadsEveryUsedField : Obligations.DecodeReadsEveryUsedField := by
  refine ⟨exists_decode_eq_ok_iff, fun w x => ⟨decode_toNat x, toWord_ofWord x⟩, fun w c _ => ?_, rfl⟩
  exact ⟨decode_op c, decode_wellFormed c, command_decode c⟩

/-- Settles O7: the five words decoded. -/
theorem writtenWordsDecode : Obligations.WrittenWordsDecode := by
  refine ⟨?_, ?_, ?_, ?_, ?_⟩ <;> decide

end Sys2Proof.Machine

/-! The assembler: which operands fit, what a written operand, a written list and a line stand for, and which lines are
refused (30_encoding.md R61, R63, R64). -/

namespace Sys2Proof.Machine

/-! ## Written operands -/

theorem fitsIn_dec_iff (n : Nat) (z : Int) :
    (Literal.dec z).fitsIn n = true ↔ -(2 ^ (n - 1)) ≤ z ∧ z ≤ 2 ^ (n - 1) - 1 := by
  simp only [Literal.fitsIn, fits, Bool.and_eq_true, decide_eq_true_eq]

theorem fitsIn_hex_iff (n b : Nat) : (Literal.hex b).fitsIn n = true ↔ b < 2 ^ n := by
  simp only [Literal.fitsIn, decide_eq_true_eq]

/-- What a literal that fits stands for is in the range of the operand: a decimal by the check itself, a hexadecimal
number because it is read as a bit pattern. -/
theorem fits_literalValue {n : Nat} {z : Literal} (h : z.fitsIn n = true) : fits n (literalValue n z) = true := by
  cases z with
  | dec z => exact h
  | hex b => exact fits_toInt _

theorem literalOperand_of_fits {n : Nat} {z : Literal} (h : z.fitsIn n = true) :
    literalOperand n z = .ok (literalValue n z) := by
  simp [literalOperand, h]

theorem literalOperand_of_not_fits {n : Nat} {z : Literal} (h : z.fitsIn n = false) :
    literalOperand n z = .error .operandTooWide := by
  simp [literalOperand, h]

/-- A hexadecimal operand that fits has its digits as its bits. -/
theorem toNat_ofInt_literalValue_hex {n b : Nat} (h : b < 2 ^ n) :
    (BitVec.ofInt n (literalValue n (.hex b))).toNat = b := by
  rw [literalValue, BitVec.ofInt_toInt, BitVec.toNat_ofNat, Nat.mod_eq_of_lt h]

/-! ## Written lists -/

theorem mapM_literalOperand_of_fits {n : Nat} {cs : List Literal} (h : ∀ c ∈ cs, c.fitsIn n = true) :
    cs.mapM (literalOperand n) = .ok (cs.map (literalValue n)) := by
  induction cs with
  | nil => rfl
  | cons c cs ih =>
    rw [List.mapM_cons, literalOperand_of_fits (h c List.mem_cons_self),
      ih fun e he => h e (List.mem_cons_of_mem c he)]
    rfl

theorem mapM_literalOperand_of_not_fits {n : Nat} {cs : List Literal} (h : ∃ c ∈ cs, c.fitsIn n = false) :
    cs.mapM (literalOperand n) = .error .operandTooWide := by
  induction cs with
  | nil => simp at h
  | cons c cs ih =>
    rw [List.mapM_cons]
    cases hc : c.fitsIn n with
    | false => rw [literalOperand_of_not_fits hc]; rfl
    | true =>
      have htail : ∃ e ∈ cs, e.fitsIn n = false := by simpa [hc] using h
      rw [literalOperand_of_fits hc, ih htail]
      rfl

theorem ofList_eq_none_of_length {α : Type} {l : List α} (h : l.length ≠ 8) : Slots.ofList l = none := by
  unfold Slots.ofList
  split
  · exact absurd rfl h
  · rfl

section Lines

variable (w : Widths) (prev : Response)

theorem listOperand_of_not_fits {cs : List Literal} (h : ∃ c ∈ cs, c.fitsIn w.cw = false) :
    listOperand w cs = .error .operandTooWide := by
  rw [listOperand, mapM_literalOperand_of_not_fits h]
  rfl

theorem listOperand_of_fits {cs : List Literal} {v : Slots Int} (hfit : ∀ c ∈ cs, c.fitsIn w.cw = true)
    (hlist : Slots.ofList (cs.map (literalValue w.cw)) = some v) : listOperand w cs = .ok v := by
  simp only [listOperand, mapM_literalOperand_of_fits hfit, bind, Except.bind, hlist]

theorem listOperand_of_fits_of_length {cs : List Literal} (hfit : ∀ c ∈ cs, c.fitsIn w.cw = true)
    (hlen : cs.length ≠ 8) : listOperand w cs = .error (.wrongVectorLength cs.length) := by
  have hnone : Slots.ofList (cs.map (literalValue w.cw)) = none := ofList_eq_none_of_length (by simpa using hlen)
  simp only [listOperand, mapM_literalOperand_of_fits hfit, bind, Except.bind, hnone, List.length_map]

/-- A list of another length than 8 is refused, for its length or already for a count that does not fit. -/
theorem listOperand_of_length {cs : List Literal} (h : cs.length ≠ 8) : ∃ e, listOperand w cs = .error e := by
  by_cases hfit : ∀ c ∈ cs, c.fitsIn w.cw = true
  · exact ⟨_, listOperand_of_fits_of_length w hfit h⟩
  · exact ⟨_, listOperand_of_not_fits w (by simpa using hfit)⟩

/-! ## Lines -/

theorem assembleLine_enc_of_fits {n : Literal} (h : n.fitsIn w.nw = true) :
    assembleLine w prev (.encdb n) = .ok (.encdb (literalValue w.nw n)) ∧
    assembleLine w prev (.encdr n) = .ok (.encdr (literalValue w.nw n)) := by
  simp only [assembleLine, literalOperand_of_fits h]
  exact ⟨rfl, rfl⟩

theorem assembleLine_enc_of_not_fits {n : Literal} (h : n.fitsIn w.nw = false) :
    assembleLine w prev (.encdb n) = .error .operandTooWide ∧
    assembleLine w prev (.encdr n) = .error .operandTooWide := by
  simp only [assembleLine, literalOperand_of_not_fits h]
  exact ⟨rfl, rfl⟩

theorem assembleLine_app_of_ok {d : DamageArg} {dmg : Int} {v : VecArg} {vec : Slots Int}
    (hd : damageOperand w prev d = .ok dmg) (hv : vecOperand w prev v = .ok vec) :
    assembleLine w prev (.appdb d v) = .ok (.appdb dmg vec) ∧
    assembleLine w prev (.appdr d v) = .ok (.appdr dmg vec) := by
  simp only [assembleLine, hd, hv]
  exact ⟨rfl, rfl⟩

/-- The damage is read before the vector: its error is the line's. -/
theorem assembleLine_app_of_damage_error {d : DamageArg} {e : AsmError} (v : VecArg)
    (hd : damageOperand w prev d = .error e) :
    assembleLine w prev (.appdb d v) = .error e ∧ assembleLine w prev (.appdr d v) = .error e := by
  simp only [assembleLine, hd]
  exact ⟨rfl, rfl⟩

theorem assembleLine_app_of_vec_error (d : DamageArg) {v : VecArg} (hv : ∃ e, vecOperand w prev v = .error e) :
    (∃ e, assembleLine w prev (.appdb d v) = .error e) ∧ (∃ e, assembleLine w prev (.appdr d v) = .error e) := by
  obtain ⟨e, hv⟩ := hv
  cases hd : damageOperand w prev d with
  | error e' =>
    obtain ⟨hdb, hdr⟩ := assembleLine_app_of_damage_error w prev v hd
    exact ⟨⟨e', hdb⟩, ⟨e', hdr⟩⟩
  | ok dmg =>
    simp only [assembleLine, hd, hv]
    exact ⟨⟨e, rfl⟩, ⟨e, rfl⟩⟩

theorem vecOperand_prevVec_eq_ok_iff (vec : Slots Int) :
    vecOperand w prev .prevVec = .ok vec ↔ ∃ op, prev = .vector op vec := by
  cases prev <;> simp [vecOperand]

theorem damageOperand_prevDmg_eq_ok_iff (dmg : Int) :
    damageOperand w prev .prevDmg = .ok dmg ↔ ∃ op ovf, prev = .damage op dmg ovf := by
  cases prev <;> simp [damageOperand]

end Lines

/-- Settles O8: lists of another length, lists of eight counts, nominals, and the value of a written operand. -/
theorem assemblerTakesExactlyEightCounts : Obligations.AssemblerTakesExactlyEightCounts := by
  refine ⟨fun w prev d cs hlen => ?_, fun w prev d c1 c2 c3 c4 c5 c6 c7 c8 _ hd hcs => ?_, fun w prev n _ hn => ?_,
    fun n z b => ⟨rfl, toNat_ofInt_literalValue_hex⟩⟩
  · exact assembleLine_app_of_vec_error w prev d (listOperand_of_length w hlen)
  · have hfit := List.all_eq_true.mp hcs
    obtain ⟨hdb, hdr⟩ := assembleLine_app_of_ok w prev (d := .lit d) (literalOperand_of_fits hd)
      (v := .list [c1, c2, c3, c4, c5, c6, c7, c8]) (listOperand_of_fits w hfit rfl)
    refine ⟨hdb, hdr, ?_⟩
    have hall : ([c1, c2, c3, c4, c5, c6, c7, c8].map (literalValue w.cw)).all (fits w.cw) = true := by
      simpa only [List.all_eq_true, List.forall_mem_map] using fun c hc => fits_literalValue (hfit c hc)
    exact Bool.and_eq_true_iff.mpr ⟨fits_literalValue hd, hall⟩
  · obtain ⟨hdb, hdr⟩ := assembleLine_enc_of_fits w prev hn
    exact ⟨hdb, hdr, fits_literalValue hn⟩

/-- Settles O9: what fits, and the error for a nominal, a damage or a count that does not. -/
theorem assemblerRefusesWhatDoesNotFit : Obligations.AssemblerRefusesWhatDoesNotFit := by
  refine ⟨fun n z b => ⟨fitsIn_dec_iff n z, fitsIn_hex_iff n b⟩, fun w prev n hn => ?_, fun w prev d v hd => ?_,
    fun w prev d cs hcs => ?_⟩
  · exact assembleLine_enc_of_not_fits w prev hn
  · exact assembleLine_app_of_damage_error w prev v (literalOperand_of_not_fits hd)
  · exact assembleLine_app_of_vec_error w prev d ⟨_, listOperand_of_not_fits w hcs⟩

/-- Settles O10: operands of any form, the two forwarded operands, and the macros. -/
theorem assemblerForwardsResponses : Obligations.AssemblerForwardsResponses := by
  refine ⟨fun w prev d dmg v vec hd hv => assembleLine_app_of_ok w prev hd hv, fun w prev => ?_, fun w prev d n => ?_⟩
  · exact ⟨vecOperand_prevVec_eq_ok_iff w prev, damageOperand_prevDmg_eq_ok_iff w prev⟩
  · exact ⟨rfl, rfl, rfl, rfl⟩

end Sys2Proof.Machine

/-! A host's run of a listing: what the engine makes of an accepted command, how long the host waits for it, and the two
responses of `MODDB` and `MODDR` (40_encoder.md R80, 41_reducer.md R104 to R108, 30_encoding.md R64). -/

namespace Sys2Proof.Machine

variable {w : Widths}

/-! ## The engine's encoder is the source's -/

theorem map_set {α β : Type} (f : α → β) (v : Slots α) (i : Nat) (a : α) :
    (v.set i a).map f = (v.map f).set i (f a) := by
  unfold Slots.set
  split <;> rfl

theorem map_fill {α β : Type} (f : α → β) (a : α) : (Slots.fill a).map f = Slots.fill (f a) := rfl

theorem toNat_absU_eq_natAbs {n : Nat} (v : BitVec n) : (absU v).toNat = v.toInt.natAbs := by
  have h := toNat_absU v
  rw [Int.abs_eq_natAbs] at h
  exact_mod_cast h

theorem toNat_wholePart {nw : Nat} (n : BitVec nw) : (wholePart n).toNat = n.toInt.natAbs / 8 := by
  rw [wholePart, BitVec.toNat_ushiftRight, Nat.shiftRight_eq_div_pow, toNat_absU_eq_natAbs]

theorem toNat_remainderPart {nw : Nat} (n : BitVec nw) : (remainderPart n).toNat = n.toInt.natAbs % 8 := by
  rw [remainderPart, toNat_low_three_bits, toNat_absU_eq_natAbs]

theorem eq_zero_iff_toNat {n : Nat} (v : BitVec n) : v = 0#n ↔ v.toNat = 0 := by
  rw [← BitVec.toNat_inj, BitVec.toNat_ofNat, Nat.zero_mod]

/-- R6's `NW ≤ CW + 3`: the eighth part of a nominal fits a slot, with the sign of the nominal. -/
theorem fits_signed_whole (hok : w.ok = true) (n : BitVec w.nw) :
    fits w.cw (if n.msb then -((n.toInt.natAbs / 8 : Nat) : Int) else (n.toInt.natAbs / 8 : Nat)) = true := by
  simp only [Widths.ok, Bool.and_eq_true, decide_eq_true_eq] at hok
  have hnw : (2 : Int) ^ (w.nw - 1) = 8 * 2 ^ (w.nw - 4) := by
    rw [show w.nw - 1 = w.nw - 4 + 3 by omega, pow_add]
    ring
  have hcw : (2 : Int) ^ (w.nw - 4) ≤ 2 ^ (w.cw - 1) := pow_le_pow_right₀ (by decide) (by omega)
  obtain ⟨hlo, hhi⟩ := fits_iff.mp (fits_toInt n)
  rw [fits_iff]
  cases hmsb : n.msb with
  | true =>
    have hneg := BitVec.toInt_neg_of_msb_true hmsb
    rw [if_pos rfl]
    omega
  | false =>
    have hnonneg := BitVec.toInt_nonneg_of_msb_false hmsb
    rw [if_neg Bool.false_ne_true]
    omega

/-- R6's `2 ≤ CW`: a slot holds `+1` and `-1`. -/
theorem fits_unit (hok : w.ok = true) : fits w.cw 1 = true ∧ fits w.cw (-1) = true := by
  simp only [Widths.ok, Bool.and_eq_true, decide_eq_true_eq] at hok
  have hcw : (2 : Int) ^ 1 ≤ 2 ^ (w.cw - 1) := pow_le_pow_right₀ (by decide) (by omega)
  rw [fits_iff, fits_iff]
  omega

/-- The encoder reads the sign off the top bit, the source by comparing with 0. -/
theorem ite_msb_eq_ite_pos {α : Type} {nw : Nat} {n : BitVec nw} (hn : n.toInt ≠ 0) (a b : α) :
    (if n.msb then a else b) = if n.toInt > 0 then b else a := by
  rw [BitVec.msb_eq_toInt]
  rcases lt_or_gt_of_ne hn with hneg | hpos
  · simp [hneg, hneg.le]
  · simp [hpos, hpos.le]

/-- What the encoder puts into slot 8, as the source does. -/
theorem toInt_encoded_whole (hok : w.ok = true) {n : BitVec w.nw} (hn : n.toInt ≠ 0) :
    (if n.msb then wrap w.cw (-((wholePart n).toNat : Int)) else wrap w.cw ((wholePart n).toNat : Int)).toInt =
      if n.toInt > 0 then fdiv n.toInt.natAbs 8 else -fdiv n.toInt.natAbs 8 := by
  rw [← apply_ite (wrap w.cw), toNat_wholePart, toInt_wrap_of_fits (widths_pos hok).2.1 (fits_signed_whole hok n),
    ite_msb_eq_ite_pos hn, fdiv_eight, Int.natCast_div]
  rfl

/-- What the encoder puts into the slot the remainder names, as the source does. -/
theorem toInt_encoded_unit (hok : w.ok = true) {n : BitVec w.nw} (hn : n.toInt ≠ 0) :
    (if n.msb then wrap w.cw (-1) else 1#w.cw).toInt = if n.toInt > 0 then 1 else -1 := by
  obtain ⟨-, hcw, -⟩ := widths_pos hok
  obtain ⟨hone, hneg⟩ := fits_unit hok
  have hwrap : 1#w.cw = wrap w.cw 1 := rfl
  rw [hwrap, ite_msb_eq_ite_pos hn, apply_ite BitVec.toInt, toInt_wrap_of_fits hcw hone, toInt_wrap_of_fits hcw hneg]

theorem map_toInt_acdsEncode (hok : w.ok = true) (n : BitVec w.nw) :
    (acdsEncode n : Slots (BitVec w.cw)).map BitVec.toInt = encZ n.toInt := by
  have hwhole : wholePart n = 0#w.nw ↔ fdiv n.toInt.natAbs 8 = 0 := by
    rw [eq_zero_iff_toNat, toNat_wholePart, fdiv_eight]
    omega
  have hremainder : remainderPart n = 0#3 ↔ n.toInt.natAbs % 8 = 0 := by
    rw [eq_zero_iff_toNat, toNat_remainderPart]
  by_cases hn : n.toInt = 0
  · simp [acdsEncode, encZ, hwhole, hremainder, hn, map_fill, fdiv_eight]
  · simp only [acdsEncode, encZ, ne_eq, hwhole, hremainder, apply_ite (Slots.map BitVec.toInt), map_set, map_fill,
      toInt_encoded_whole hok hn, toInt_encoded_unit hok hn, toNat_remainderPart, BitVec.toInt_zero]

/-! ## The fold in progress (41_reducer.md R104) -/

theorem foldAt_acceptApp (op : BitVec 2) (d : BitVec w.dw) (v : Slots (BitVec w.cw)) (r : Regs w) :
    FoldAt d (acceptApp op d v r) := by
  refine ⟨by simp, by simp, by simp, ?_⟩
  simp [partialFold_start]

theorem foldAt_repetitionStep {d : BitVec w.dw} {r : Regs w} (h : FoldAt d r) (hrep : r.rep ≠ 0#w.cw) :
    FoldAt d (repetitionStep r) := by
  obtain ⟨hlo, hhi, hle, hfold⟩ := h
  obtain ⟨hpred, hpos⟩ := toNat_pred hrep
  refine ⟨hlo, hhi, by simp only [repetitionStep_rep, repetitionStep_vec, repetitionStep_idx]; omega, ?_⟩
  have hmade : (repetitions (readSlot r.vec r.idx)).toNat - (r.rep - 1#w.cw).toNat =
      (repetitions (readSlot r.vec r.idx)).toNat - r.rep.toNat + 1 := by omega
  simp only [repetitionStep_rep, repetitionStep_vec, repetitionStep_idx, repetitionStep_opr, hmade, partialFold_succ,
    ← hfold]
  rfl

theorem foldAt_slotAdvanceStep {d : BitVec w.dw} {r : Regs w} (h : FoldAt d r) (hrep : r.rep = 0#w.cw)
    (hidx : r.idx ≠ 8#4) : FoldAt d (slotAdvanceStep r) := by
  obtain ⟨hlo, hhi, -, hfold⟩ := h
  have hsucc : (slotAdvanceStep r).idx.toNat = r.idx.toNat + 1 := toNat_slot_succ hhi
  have hlt : r.idx.toNat ≠ 8 := fun h8 => hidx (BitVec.eq_of_toNat_eq h8)
  refine ⟨by omega, by omega, le_rfl, ?_⟩
  simp only [slotAdvanceStep_dmg, slotAdvanceStep_ovf, slotAdvanceStep_opr, slotAdvanceStep_vec, slotAdvanceStep_idx,
    slotAdvanceStep_rep, Nat.sub_self, partialFold_next _ _ _ hlo (by omega : r.idx.toNat ≤ 7), hfold, hrep,
    BitVec.toNat_ofNat, Nat.zero_mod, Nat.sub_zero]

theorem foldAt_done {d : BitVec w.dw} {r : Regs w} (h : FoldAt d r) (hrep : r.rep = 0#w.cw) (hidx : r.idx = 8#4) :
    (r.dmg, r.ovf) = acdsApply (contextBit r.opr) d r.vec := by
  obtain ⟨-, -, -, hfold⟩ := h
  rw [hfold, acdsApply_eq_partialFold, hrep, hidx]
  simp

/-! ## The reducer steps of a command, to the end (41_reducer.md R105, R108) -/

theorem reducerStep_of_rep_ne {r : Regs w} (hrep : r.rep ≠ 0#w.cw) : reducerStep r = repetitionStep r :=
  if_pos hrep

theorem reducerStep_of_idx_ne {r : Regs w} (hrep : r.rep = 0#w.cw) (hidx : r.idx ≠ 8#4) :
    reducerStep r = slotAdvanceStep r := by
  simp [reducerStep, hrep, hidx]

theorem reducerStep_of_done {r : Regs w} (hrep : r.rep = 0#w.cw) (hidx : r.idx = 8#4) :
    reducerStep r = completionStep r := by
  simp [reducerStep, hrep, hidx]

theorem reduceFor_succ {r : Regs w} (hbusy : r.busy = true) (k : Nat) :
    reduceFor (k + 1) r = reduceFor k (reducerStep r) := by
  simp [reduceFor, hbusy]

/-- The registers are busy and silent for `k` reducer steps. -/
def BusyFor (k : Nat) (r : Regs w) : Prop :=
  ∀ j, j < k → (reduceFor j r).busy = true ∧ (reduceFor j r).rspValid = false

theorem busyFor_zero (r : Regs w) : BusyFor 0 r := fun _ hj => absurd hj (Nat.not_lt_zero _)

theorem busyFor_succ_iff {r : Regs w} (k : Nat) :
    BusyFor (k + 1) r ↔ (r.busy = true ∧ r.rspValid = false) ∧ BusyFor k (reducerStep r) := by
  constructor
  · intro h
    have hr := h 0 (Nat.succ_pos k)
    exact ⟨hr, fun j hj => reduceFor_succ hr.1 j ▸ h (j + 1) (Nat.succ_lt_succ hj)⟩
  · rintro ⟨hr, h⟩ (_ | j) hj
    · exact hr
    · exact reduceFor_succ hr.1 j ▸ h j (Nat.lt_of_succ_lt_succ hj)

/-- `e` is what the command in progress in `r` ends with: idle, its response presented, and, where `r` is a stage of
the fold of a damage, the result of that fold. -/
structure EndsWith (r e : Regs w) : Prop where
  busy_eq : e.busy = false
  rspValid_eq : e.rspValid = true
  opr_eq : e.opr = r.opr
  vec_eq : e.vec = r.vec
  rvec_eq : e.rvec = r.rvec
  fold_eq : ∀ d, FoldAt d r → (e.dmg, e.ovf) = acdsApply (contextBit r.opr) d r.vec

theorem endsWith_completionStep {r : Regs w} (hrep : r.rep = 0#w.cw) (hidx : r.idx = 8#4) :
    EndsWith r (completionStep r) :=
  ⟨rfl, rfl, rfl, rfl, rfl, fun _ h => foldAt_done h hrep hidx⟩

theorem EndsWith.of_repetitionStep {r e : Regs w} (h : EndsWith (repetitionStep r) e) (hrep : r.rep ≠ 0#w.cw) :
    EndsWith r e :=
  ⟨h.busy_eq, h.rspValid_eq, h.opr_eq, h.vec_eq, h.rvec_eq, fun d hd => h.fold_eq d (foldAt_repetitionStep hd hrep)⟩

theorem EndsWith.of_slotAdvanceStep {r e : Regs w} (h : EndsWith (slotAdvanceStep r) e) (hrep : r.rep = 0#w.cw)
    (hidx : r.idx ≠ 8#4) : EndsWith r e :=
  ⟨h.busy_eq, h.rspValid_eq, h.opr_eq, h.vec_eq, h.rvec_eq,
    fun d hd => h.fold_eq d (foldAt_slotAdvanceStep hd hrep hidx)⟩

/-- The reducer steps of a command end: the position rises to slot 8, and within a slot `REP` falls to 0. -/
theorem exists_reduceFor_endsWith {r : Regs w} (hlegal : r.legal) (hbusy : r.busy = true) :
    ∃ k, BusyFor k r ∧ EndsWith r (reduceFor k r) := by
  obtain ⟨hvalid, -, -, hhi, -⟩ := hlegal.1 hbusy
  by_cases hrep : r.rep = 0#w.cw
  · by_cases hidx : r.idx = 8#4
    · refine ⟨1, (busyFor_succ_iff 0).mpr ⟨⟨hbusy, hvalid⟩, busyFor_zero _⟩, ?_⟩
      rw [reduceFor_succ hbusy, reducerStep_of_done hrep hidx]
      exact endsWith_completionStep hrep hidx
    · have hstep := reducerStep_of_idx_ne hrep hidx
      obtain ⟨k, hk, hend⟩ := exists_reduceFor_endsWith (slotAdvanceStep_legal hlegal hbusy hidx) hbusy
      refine ⟨k + 1, (busyFor_succ_iff k).mpr ⟨⟨hbusy, hvalid⟩, hstep ▸ hk⟩, ?_⟩
      rw [reduceFor_succ hbusy, hstep]
      exact hend.of_slotAdvanceStep hrep hidx
  · have hstep := reducerStep_of_rep_ne hrep
    obtain ⟨k, hk, hend⟩ := exists_reduceFor_endsWith (repetitionStep_legal hlegal hbusy hrep) hbusy
    refine ⟨k + 1, (busyFor_succ_iff k).mpr ⟨⟨hbusy, hvalid⟩, hstep ▸ hk⟩, ?_⟩
    rw [reduceFor_succ hbusy, hstep]
    exact hend.of_repetitionStep hrep
termination_by (8 - r.idx.toNat, r.rep.toNat)
decreasing_by
  · have hsucc : (slotAdvanceStep r).idx.toNat = r.idx.toNat + 1 := toNat_slot_succ hhi
    have hlt : r.idx.toNat ≠ 8 := fun h8 => hidx (BitVec.eq_of_toNat_eq h8)
    exact Prod.Lex.left _ _ (by omega)
  · obtain ⟨hpred, hpos⟩ := toNat_pred hrep
    exact Prod.Lex.right _ (by simp only [repetitionStep_rep]; omega)

/-! ## The response to an accepted command -/

theorem response_of_endsWith_acceptApp {op : BitVec 2} {d : BitVec w.dw} {v : Slots (BitVec w.cw)} {r e : Regs w}
    (hunit : unitBit op = true) (h : EndsWith (acceptApp op d v r) e) :
    response e =
      .damage op (acdsApply (contextBit op) d v).1.toInt (acdsApply (contextBit op) d v).2 := by
  have hfold := h.fold_eq d (foldAt_acceptApp op d v r)
  simp only [acceptApp_opr, acceptApp_vec] at hfold
  have hopr : e.opr = op := h.opr_eq
  rw [← hfold]
  exact response_eq_damage_iff.mpr ⟨h.rspValid_eq, hopr ▸ hunit, hopr, rfl, rfl⟩

/-- An accepted command is answered with the outcome the contract gives it (42_command_sequencing.md R119): an ENC* in
its acceptance step, an APP* after its reducer steps. -/
theorem acceptCommand_answers (hok : w.ok = true) (c : Command w) {r : Regs w} (hr : r.busy = false) :
    ∃ k, BusyFor k (acceptCommand c r) ∧ (reduceFor k (acceptCommand c r)).busy = false ∧
      (reduceFor k (acceptCommand c r)).rspValid = true ∧
      response (reduceFor k (acceptCommand c r)) = contractOutcome c := by
  cases hunit : unitBit c.op with
  | false =>
    refine ⟨0, busyFor_zero _, ?_⟩
    simp [reduceFor, acceptCommand, contractOutcome, hunit, hr, response_acceptEnc, map_toInt_acdsEncode hok]
  | true =>
    have haccept : acceptCommand c r = acceptApp c.op c.damage (unpack c.vec) r := by simp [acceptCommand, hunit]
    obtain ⟨k, hk, hend⟩ := exists_reduceFor_endsWith (acceptApp_legal r c.damage (unpack c.vec) hunit) rfl
    rw [haccept]
    refine ⟨k, hk, hend.busy_eq, hend.rspValid_eq, ?_⟩
    rw [response_of_endsWith_acceptApp hunit hend]
    simp [contractOutcome, hunit]

/-! ## The host driver -/

theorem waitFor_of_seen {seen : {w : Widths} → Outputs w → Bool} {s : State} (h : seen (outputs s.regs) = true)
    (patience : Nat) : waitFor seen patience s = some s := by
  cases patience <;> simp [waitFor, h]

theorem step_busy_waiting {s : State} (hbusy : s.regs.busy = true) :
    step { s with inputs := [] } = .next { s with regs := reducerStep s.regs, inputs := [] } :=
  step_of_busy rfl hbusy

/-- A patient host waits through the reducer steps of a command, to the first state that shows what it waits for. -/
theorem waitFor_eq_reduceFor {seen : {w : Widths} → Outputs w → Bool} {k : Nat} {s : State}
    (hbusy : BusyFor k s.regs) (hunseen : ∀ j, j < k → seen (outputs (reduceFor j s.regs)) = false)
    (hseen : seen (outputs (reduceFor k s.regs)) = true) :
    ∃ inputs, ∀ patience, k ≤ patience →
      waitFor seen patience s = some { s with regs := reduceFor k s.regs, inputs := inputs } := by
  induction k generalizing s with
  | zero => exact ⟨s.inputs, fun patience _ => waitFor_of_seen hseen patience⟩
  | succ k ih =>
    obtain ⟨⟨hr, -⟩, hrest⟩ := (busyFor_succ_iff k).mp hbusy
    obtain ⟨inputs, hwait⟩ := ih (s := { s with regs := reducerStep s.regs, inputs := [] }) hrest
      (fun j hj => reduceFor_succ hr j ▸ hunseen (j + 1) (Nat.succ_lt_succ hj)) (reduceFor_succ hr k ▸ hseen)
    refine ⟨inputs, fun patience hle => ?_⟩
    obtain ⟨p, rfl⟩ := Nat.exists_eq_add_of_le' hle
    have hnow : seen (outputs s.regs) = false := hunseen 0 (Nat.succ_pos k)
    have hstep := hwait (p + k) (Nat.le_add_left k p)
    rw [← reduceFor_succ hr] at hstep
    simpa [waitFor, hnow, step_busy_waiting hr] using hstep

/-- From every legal state the engine comes to be ready. -/
theorem exists_waitFor_cmdReady {s : State} (hlegal : s.regs.legal) :
    ∃ t enough, t.widths = s.widths ∧ t.regs.busy = false ∧
      ∀ patience, enough ≤ patience → waitFor (fun o => o.cmdReady) patience s = some t := by
  cases hbusy : s.regs.busy with
  | false => exact ⟨s, 0, rfl, hbusy, fun patience _ => waitFor_of_seen (by simp [outputs, cmdReady, hbusy]) patience⟩
  | true =>
    obtain ⟨k, hk, hend⟩ := exists_reduceFor_endsWith hlegal hbusy
    obtain ⟨inputs, hwait⟩ := waitFor_eq_reduceFor (seen := fun o => o.cmdReady) hk
      (fun j hj => by simp [outputs, cmdReady, (hk j hj).1]) (by simp [outputs, cmdReady, hend.busy_eq])
    exact ⟨{ s with regs := reduceFor k s.regs, inputs := inputs }, k, rfl, hend.busy_eq, hwait⟩

theorem present_of_ready (i : Instr) {s : State} (hr : s.regs.busy = false) (patience : Nat) :
    present i (patience + 1) s =
      some { s with regs := acceptCommand (i.command s.widths) s.regs, inputs := [] } := by
  have hready : (outputs s.regs).cmdReady = true := by simp [outputs, cmdReady, hr]
  have hstep : step { s with inputs := [Inputs.present (i.command s.widths)] } =
      .next { s with regs := acceptCommand (i.command s.widths) s.regs, inputs := [] } := by
    rw [step_eq_nextRegs]
    simp [nextRegs, hr]
  simp [present, hstep, hready]

/-- A host that finds the engine ready gets the response of its own command, and leaves the engine ready. -/
theorem exists_issue (i : Instr) {s : State} (hok : s.widths.ok = true) (hr : s.regs.busy = false) :
    ∃ t enough, t.widths = s.widths ∧ t.regs.busy = false ∧
      response t.regs = contractOutcome (i.command s.widths) ∧
      ∀ patience, enough ≤ patience → issue patience i s = .ok t := by
  obtain ⟨k, hk, hidle, hvalid, hresponse⟩ := acceptCommand_answers hok (i.command s.widths) hr
  obtain ⟨inputs, hwait⟩ := waitFor_eq_reduceFor (seen := fun o => o.rspValid)
    (s := { s with regs := acceptCommand (i.command s.widths) s.regs, inputs := [] }) hk
    (fun j hj => (hk j hj).2) hvalid
  refine ⟨{ s with regs := reduceFor k (acceptCommand (i.command s.widths) s.regs), inputs := inputs }, k + 1, rfl,
    hidle, hresponse, fun patience hle => ?_⟩
  obtain ⟨p, rfl⟩ := Nat.exists_eq_add_of_le' hle
  have hpresent := present_of_ready i hr (p + k)
  have hanswer := hwait (p + (k + 1)) (by omega)
  simp only [issue, ← Nat.add_assoc, hpresent] at hanswer ⊢
  rw [hanswer]

theorem issueLines_cons {patience : Nat} {l : AsmLine} {ls : List AsmLine} {s r t u : State} {i : Instr}
    {rs : List Response} (hwait : waitFor (fun o => o.cmdReady) patience s = some r)
    (hline : assembleLine r.widths (response r.regs) l = .ok i) (hissue : issue patience i r = .ok t)
    (hrest : issueLines patience ls t = .ok (rs, u)) :
    issueLines patience (l :: ls) s = .ok (response t.regs :: rs, u) := by
  simp only [issueLines, hwait, hline, hissue, hrest]

/-- Two lines, the second assembled on the response to the first. -/
theorem exists_issueLines_pair {first second : AsmLine} {i j : Instr} {s : State} (hlegal : s.legal)
    (hfirst : ∀ prev, assembleLine s.widths prev first = .ok i)
    (hsecond : assembleLine s.widths (contractOutcome (i.command s.widths)) second = .ok j) :
    ∃ enough, ∀ patience, enough ≤ patience → ∃ t, issueLines patience [first, second] s =
      .ok ([contractOutcome (i.command s.widths), contractOutcome (j.command s.widths)], t) := by
  obtain ⟨hok, hregs⟩ := hlegal
  obtain ⟨r, enough₁, hrw, hr, hwait⟩ := exists_waitFor_cmdReady hregs
  rw [← hrw] at hok hfirst hsecond ⊢
  obtain ⟨t, enough₂, htw, ht, hti, hissue₁⟩ := exists_issue i hok hr
  rw [← htw] at hok
  obtain ⟨u, enough₃, -, -, huj, hissue₂⟩ := exists_issue j hok ht
  refine ⟨max enough₁ (max enough₂ enough₃), fun patience hle => ⟨u, ?_⟩⟩
  obtain ⟨hle₁, hle₂, hle₃⟩ : enough₁ ≤ patience ∧ enough₂ ≤ patience ∧ enough₃ ≤ patience := by omega
  rw [← hti, ← htw, ← huj]
  have hready : (outputs t.regs).cmdReady = true := by simp [outputs, cmdReady, ht]
  exact issueLines_cons (hwait _ hle₁) (hfirst _) (hissue₁ _ hle₂)
    (issueLines_cons (waitFor_of_seen hready _) (by rw [hti, htw]; exact hsecond) (hissue₂ _ hle₃) rfl)

/-! ## `MODDB` and `MODDR` -/

theorem contractOutcome_enc {n : Int} (hnw : 0 < w.nw) (hn : fits w.nw n = true) :
    contractOutcome ((Instr.encdb n).command w) = .vector 0b00#2 (encZ n) ∧
    contractOutcome ((Instr.encdr n).command w) = .vector 0b01#2 (encZ n) := by
  simp [contractOutcome, Instr.command, unitBit, toInt_wrap_of_fits hnw hn]

theorem contractOutcome_appdb (d : Int) (v : Slots Int) :
    contractOutcome ((Instr.appdb d v).command w) =
      .damage 0b10#2 (acdsApply false (wrap w.dw d) (v.map (wrap w.cw))).1.toInt
        (acdsApply false (wrap w.dw d) (v.map (wrap w.cw))).2 := by
  simp [contractOutcome, Instr.command, unitBit, contextBit, unpack_pack]

theorem contractOutcome_appdr (d : Int) (v : Slots Int) :
    contractOutcome ((Instr.appdr d v).command w) =
      .damage 0b11#2 (acdsApply true (wrap w.dw d) (v.map (wrap w.cw))).1.toInt
        (acdsApply true (wrap w.dw d) (v.map (wrap w.cw))).2 := by
  simp [contractOutcome, Instr.command, unitBit, contextBit, unpack_pack]

/-- Settles O58: `MODDB` and `MODDR` are two lines each, the second taking the vector that answers the first. -/
theorem macroEncodesThenApplies : Obligations.MacroEncodesThenApplies := by
  intro d n s hlegal hwf
  obtain ⟨hd, hn⟩ : d.fitsIn s.widths.dw = true ∧ n.fitsIn s.widths.nw = true := by
    simpa only [AsmLine.wellFormed, DamageArg.wellFormed, Bool.and_eq_true] using hwf
  obtain ⟨hencdb, hencdr⟩ := contractOutcome_enc (widths_pos hlegal.1).1 (fits_literalValue hn)
  have hfirst prev := assembleLine_enc_of_fits s.widths prev hn
  have hsecond op := assembleLine_app_of_ok s.widths (.vector op (encZ (literalValue s.widths.nw n))) (d := .lit d)
    (v := .prevVec) (literalOperand_of_fits hd) rfl
  obtain ⟨enough₁, hdb⟩ := exists_issueLines_pair (second := .appdb (.lit d) .prevVec) hlegal
    (fun prev => (hfirst prev).1) (hencdb ▸ (hsecond 0b00#2).1)
  obtain ⟨enough₂, hdr⟩ := exists_issueLines_pair (second := .appdr (.lit d) .prevVec) hlegal
    (fun prev => (hfirst prev).2) (hencdr ▸ (hsecond 0b01#2).2)
  rw [hencdb, contractOutcome_appdb] at hdb
  rw [hencdr, contractOutcome_appdr] at hdr
  exact ⟨max enough₁ enough₂, fun patience hle => ⟨hdb patience (by omega), hdr patience (by omega)⟩⟩

end Sys2Proof.Machine

/-! The encoder: what each slot of an encoding holds, and what follows for its shape, its negation and the nominal it
came from (40_encoder.md R73 to R82). -/

namespace Sys2Proof.Machine

/-! ## The source's encoding, slot by slot (40_encoder.md R71) -/

section Source

/-- What the source's encoding holds in slot `i`: the signed whole part in slot 8, the sign in the slot the remainder
names, 0 in every other. -/
def countZ (n : Int) (i : Nat) : Int :=
  if i = 8 then n.sign * (n.natAbs / 8 : Nat) else if i = n.natAbs % 8 then n.sign else 0

theorem countZ_of_le_seven (n : Int) {i : Nat} (h7 : i ≤ 7) :
    countZ n i = if i = n.natAbs % 8 then n.sign else 0 := if_neg (by omega)

theorem countZ_zero (i : Nat) : countZ 0 i = 0 := by
  simp [countZ]

theorem countZ_neg (n : Int) (i : Nat) : countZ (-n) i = -countZ n i := by
  simp only [countZ, Int.sign_neg, Int.natAbs_neg]
  split_ifs <;> simp

theorem countZ_ne_zero_iff (n : Int) {i : Nat} (h1 : 1 ≤ i) (h7 : i ≤ 7) :
    countZ n i ≠ 0 ↔ n.natAbs % 8 = i := by
  rw [countZ_of_le_seven n h7]
  by_cases hi : i = n.natAbs % 8
  · have hn : n ≠ 0 := by omega
    rw [if_pos hi]
    exact ⟨fun _ => hi.symm, fun _ => mt Int.sign_eq_zero_iff_zero.mp hn⟩
  · rw [if_neg hi]
    exact ⟨fun h => absurd rfl h, fun h => absurd h.symm hi⟩

/-- A count that is not 0 has the sign of the nominal. -/
theorem countZ_neg_iff {n : Int} {i : Nat} (h : countZ n i ≠ 0) : countZ n i < 0 ↔ n < 0 := by
  rcases lt_trichotomy n 0 with hn | rfl | hn
  · rw [countZ, Int.sign_eq_neg_one_of_neg hn] at h ⊢
    split_ifs at h ⊢ <;> omega
  · exact absurd (countZ_zero i) h
  · rw [countZ, Int.sign_eq_one_of_pos hn] at h ⊢
    split_ifs at h ⊢ <;> omega

theorem set_ofSlot {α : Type} (f : Nat → α) (i : Nat) (a : α) :
    (Slots.ofSlot f).set i a = Slots.ofSlot (Function.update f i a) := by
  unfold Slots.set Slots.ofSlot
  split <;> simp_all [eq_comm]

theorem fill_eq_ofSlot {α : Type} (a : α) : Slots.fill a = Slots.ofSlot fun _ => a := rfl

theorem ofSlot_congr {α : Type} {f g : Nat → α} (h : ∀ i, 1 ≤ i → i ≤ 8 → f i = g i) :
    Slots.ofSlot f = Slots.ofSlot g := by
  simp [Slots.ofSlot, h]

theorem ite_pos_eq_sign_mul {n : Int} (hn : n ≠ 0) (a : Int) : (if n > 0 then a else -a) = n.sign * a := by
  rcases lt_or_gt_of_ne hn with hneg | hpos
  · rw [if_neg hneg.not_gt, Int.sign_eq_neg_one_of_neg hneg, neg_one_mul]
  · rw [if_pos hpos, Int.sign_eq_one_of_pos hpos, one_mul]

/-- Writing 0 into a slot of zeros changes nothing, so the source's test of the whole part may go. -/
theorem source_whole_eq_ofSlot (n : Int) :
    (if fdiv n.natAbs 8 ≠ 0 then
        (Slots.fill 0).set 8 (if n > 0 then fdiv n.natAbs 8 else -fdiv n.natAbs 8) else Slots.fill 0) =
      Slots.ofSlot (Function.update (fun _ => 0) 8 (n.sign * (n.natAbs / 8 : Nat))) := by
  have hwhole : fdiv n.natAbs 8 = (n.natAbs / 8 : Nat) := fdiv_eight n.natAbs
  rw [hwhole, fill_eq_ofSlot]
  by_cases h : ((n.natAbs / 8 : Nat) : Int) = 0
  · rw [if_neg (not_not.mpr h), h, mul_zero, Function.update_eq_self_iff.mpr rfl]
  · rw [if_pos h, ite_pos_eq_sign_mul (by omega), set_ofSlot]

/-- There is no slot 0, so the source's test of the remainder may go. -/
theorem source_remainder_eq_set (n : Int) (v : Slots Int) :
    (if n.natAbs % 8 ≠ 0 then v.set (n.natAbs % 8) (if n > 0 then 1 else -1) else v) =
      v.set (n.natAbs % 8) n.sign := by
  by_cases h : n.natAbs % 8 = 0
  · rw [if_neg (not_not.mpr h), h]
    rfl
  · rw [if_pos h, ite_pos_eq_sign_mul (by omega), mul_one]

theorem encZ_eq_ofSlot (n : Int) : encZ n = Slots.ofSlot (countZ n) := by
  have hlt : n.natAbs % 8 < 8 := Nat.mod_lt _ (by decide)
  refine (source_remainder_eq_set n _).trans ?_
  rw [source_whole_eq_ofSlot, set_ofSlot]
  refine ofSlot_congr fun i _ _ => ?_
  simp only [Function.update_apply, countZ]
  by_cases h8 : i = 8
  · rw [if_neg (by omega), if_pos h8, if_pos h8]
  · rw [if_neg h8, if_neg h8]

theorem get?_encZ (n : Int) {i : Nat} (h1 : 1 ≤ i) (h8 : i ≤ 8) : (encZ n).get? i = some (countZ n i) := by
  rw [encZ_eq_ofSlot, get?_ofSlot _ h1 h8]

/-- R76 over the integers. -/
theorem encZ_neg (n : Int) : encZ (-n) = (encZ n).map fun c => -c := by
  rw [encZ_eq_ofSlot, encZ_eq_ofSlot, ofSlot_congr fun i _ _ => countZ_neg n i]
  rfl

/-- One slot for a remainder and one for a whole part, where they are not 0. -/
theorem length_nonZero_encZ (n : Int) :
    ((encZ n).toList.filter (fun c => c ≠ 0)).length =
      (if n.natAbs % 8 = 0 then 0 else 1) + (if n.natAbs / 8 = 0 then 0 else 1) := by
  by_cases hn : n = 0
  · subst hn
    rfl
  · have hsign : n.sign ≠ 0 := mt Int.sign_eq_zero_iff_zero.mp hn
    have hlt : n.natAbs % 8 < 8 := Nat.mod_lt _ (by decide)
    have hwhole : n.natAbs / 8 = 0 ↔ n.sign * (n.natAbs / 8 : Nat) = 0 := by
      simp only [mul_eq_zero, hsign, false_or, Int.natCast_eq_zero]
    simp only [encZ_eq_ofSlot, Slots.ofSlot, Slots.toList, countZ, hwhole]
    generalize n.natAbs % 8 = r at hlt ⊢
    generalize n.sign * (n.natAbs / 8 : Nat) = c
    by_cases hc : c = 0 <;> interval_cases r <;> simp [hsign, hc]

theorem eq_sign_mul_whole_add_remainder (n : Int) :
    n = 8 * (n.sign * (n.natAbs / 8 : Nat)) + (n.natAbs % 8 : Nat) * n.sign := by
  have hdiv : (n.natAbs : Int) = 8 * (n.natAbs / 8 : Nat) + (n.natAbs % 8 : Nat) := by omega
  calc n = n.sign * n.natAbs := (Int.sign_mul_natAbs n).symm
    _ = 8 * (n.sign * (n.natAbs / 8 : Nat)) + (n.natAbs % 8 : Nat) * n.sign := by rw [hdiv]; ring

/-- The sum of R78. -/
def weightedSum (v : Slots Int) : Int :=
  v.c1 + 2 * v.c2 + 3 * v.c3 + 4 * v.c4 + 5 * v.c5 + 6 * v.c6 + 7 * v.c7 + 8 * v.c8

theorem weightedSum_encZ (n : Int) : weightedSum (encZ n) = n := by
  have hlt : n.natAbs % 8 < 8 := Nat.mod_lt _ (by decide)
  conv_rhs => rw [eq_sign_mul_whole_add_remainder n]
  simp only [encZ_eq_ofSlot, weightedSum, Slots.ofSlot, countZ]
  generalize n.natAbs % 8 = r at hlt ⊢
  interval_cases r <;> simp [add_comm]

end Source

/-! ## The engine's encoding, slot by slot (40_encoder.md R72, R80) -/

section Engine

variable {w : Widths}

theorem eq_zero_iff_toInt {n : Nat} (c : BitVec n) : c = 0#n ↔ c.toInt = 0 := by
  rw [← BitVec.toInt_inj, BitVec.toInt_zero]

theorem toInt_of_get?_acdsEncode (hok : w.ok = true) {n : BitVec w.nw} {i : Nat} {c : BitVec w.cw} (h1 : 1 ≤ i)
    (h8 : i ≤ 8) (h : (acdsEncode n : Slots (BitVec w.cw)).get? i = some c) : c.toInt = countZ n.toInt i := by
  have hmap := get?_map BitVec.toInt (acdsEncode n : Slots (BitVec w.cw)) i
  rw [map_toInt_acdsEncode hok, get?_encZ _ h1 h8, h] at hmap
  exact (Option.some.inj hmap).symm

theorem toInt_acdsEncode_c8 (hok : w.ok = true) (n : BitVec w.nw) :
    (acdsEncode n : Slots (BitVec w.cw)).c8.toInt = n.toInt.sign * (n.toInt.natAbs / 8 : Nat) :=
  toInt_of_get?_acdsEncode hok (i := 8) (by decide) le_rfl rfl

theorem ne_zero_of_get?_acdsEncode_iff (hok : w.ok = true) {n : BitVec w.nw} {i : Nat} {c : BitVec w.cw} (h1 : 1 ≤ i)
    (h7 : i ≤ 7) (h : (acdsEncode n : Slots (BitVec w.cw)).get? i = some c) :
    c ≠ 0#w.cw ↔ n.toInt.natAbs % 8 = i := by
  rw [Ne, eq_zero_iff_toInt, toInt_of_get?_acdsEncode hok h1 (by omega) h]
  exact countZ_ne_zero_iff n.toInt h1 h7

theorem length_nonZero_map_toInt {cw : Nat} (v : Slots (BitVec cw)) :
    ((v.map BitVec.toInt).toList.filter (fun c => c ≠ 0)).length =
      (v.toList.filter (fun c => c ≠ 0#cw)).length := by
  have hlist : (v.map BitVec.toInt).toList = v.toList.map BitVec.toInt := rfl
  rw [hlist, List.filter_map, List.length_map]
  simp only [Function.comp_def, Ne, ← eq_zero_iff_toInt]

theorem exists_get?_of_mem_toList {α : Type} {v : Slots α} {a : α} (h : a ∈ v.toList) :
    ∃ i, 1 ≤ i ∧ i ≤ 8 ∧ v.get? i = some a := by
  simp only [Slots.toList, List.mem_cons, List.not_mem_nil, or_false] at h
  rcases h with rfl | rfl | rfl | rfl | rfl | rfl | rfl | rfl
  exacts [⟨1, by decide, by decide, rfl⟩, ⟨2, by decide, by decide, rfl⟩, ⟨3, by decide, by decide, rfl⟩,
    ⟨4, by decide, by decide, rfl⟩, ⟨5, by decide, by decide, rfl⟩, ⟨6, by decide, by decide, rfl⟩,
    ⟨7, by decide, by decide, rfl⟩, ⟨8, by decide, by decide, rfl⟩]

theorem msb_of_mem_acdsEncode (hok : w.ok = true) {n : BitVec w.nw} {c : BitVec w.cw}
    (hmem : c ∈ (acdsEncode n : Slots (BitVec w.cw)).toList) (hc : c ≠ 0#w.cw) : c.msb = n.msb := by
  obtain ⟨i, h1, h8, hget⟩ := exists_get?_of_mem_toList hmem
  have hcount := toInt_of_get?_acdsEncode hok h1 h8 hget
  rw [Ne, eq_zero_iff_toInt, hcount] at hc
  rw [BitVec.msb_eq_toInt, BitVec.msb_eq_toInt, hcount, decide_eq_decide]
  exact countZ_neg_iff hc

end Engine

/-- Settles O11: slot by slot, from the equality of the two vectors. -/
theorem encoderAgreesWithSource : Obligations.EncoderAgreesWithSource := by
  intro w n hok i _ _
  rw [← get?_map, map_toInt_acdsEncode hok]

/-- Settles O12: the counts of non-zero slots by the remainder and the whole part, the rest slot by slot. -/
theorem encodedVectorShape : Obligations.EncodedVectorShape := by
  intro w n hok v nonZero
  have hcount : nonZero =
      (if n.toInt.natAbs % 8 = 0 then 0 else 1) + (if n.toInt.natAbs / 8 = 0 then 0 else 1) := by
    rw [← length_nonZero_encZ, ← map_toInt_acdsEncode hok, length_nonZero_map_toInt]
  refine ⟨?_, ?_, ?_, ?_, ?_, ?_, fun c => msb_of_mem_acdsEncode hok⟩
  · split_ifs at hcount <;> omega
  · split_ifs at hcount <;> omega
  · split_ifs at hcount <;> omega
  · intro i c h1 h7 hc
    rw [toInt_of_get?_acdsEncode hok h1 (by omega) hc, countZ_of_le_seven _ h7]
    have hsign := n.toInt.sign_trichotomy
    split_ifs <;> omega
  · intro i j c e hi1 hi7 hj1 hj7 hc he hc0 he0
    exact ((ne_zero_of_get?_acdsEncode_iff hok hi1 hi7 hc).mp hc0).symm.trans
      ((ne_zero_of_get?_acdsEncode_iff hok hj1 hj7 he).mp he0)
  · rw [toInt_acdsEncode_c8 hok]
    rcases lt_trichotomy n.toInt 0 with hneg | hzero | hpos
    · rw [if_pos hneg, Int.sign_eq_neg_one_of_neg hneg]
    · simp [hzero]
    · rw [if_neg hpos.not_gt, Int.sign_eq_one_of_pos hpos]

/-- Settles O13: negating the nominal negates every count, and the engine's counts are the source's. -/
theorem encodingOfNegationIsNegated : Obligations.EncodingOfNegationIsNegated := by
  refine ⟨encZ_neg, fun w n hok hmin => ?_⟩
  calc (acdsEncode (-n) : Slots (BitVec w.cw)).map BitVec.toInt
      = encZ (-n.toInt) := by rw [map_toInt_acdsEncode hok, BitVec.toInt_neg_of_ne_intMin hmin]
    _ = ((acdsEncode n : Slots (BitVec w.cw)).map BitVec.toInt).map fun c => -c := by
      rw [encZ_neg, map_toInt_acdsEncode hok]

/-- Settles O14: the two parts as quotient and remainder of the magnitude, and where the vector holds them. -/
theorem wholeAndRemainderRebuildMagnitude : Obligations.WholeAndRemainderRebuildMagnitude := by
  intro w n hok v
  rw [toNat_wholePart, toNat_remainderPart]
  refine ⟨by omega, by omega, ?_, fun i c h1 h7 hc => ne_zero_of_get?_acdsEncode_iff hok h1 h7 hc⟩
  rw [toInt_acdsEncode_c8 hok, Int.natAbs_mul, Int.natAbs_sign, Int.natAbs_natCast]
  split_ifs with hn
  · simp [hn]
  · rw [one_mul]

/-- Settles O15: the weighted sum of an encoding is its nominal, in the engine as in the source. -/
theorem encodingDeterminesNominal : Obligations.EncodingDeterminesNominal := by
  intro w n m hok v
  have hparts : n.toInt = 8 * v.c8.toInt + (n.toInt.natAbs % 8 : Nat) * n.toInt.sign := by
    rw [toInt_acdsEncode_c8 hok]
    exact eq_sign_mul_whole_add_remainder n.toInt
  refine ⟨?_, ?_, ?_, ?_⟩
  · conv_lhs => rw [← weightedSum_encZ n.toInt, ← map_toInt_acdsEncode hok]
    rfl
  · intro r c h1 h7 hc hc0
    have hr := (ne_zero_of_get?_acdsEncode_iff hok h1 h7 hc).mp hc0
    rw [toInt_of_get?_acdsEncode hok h1 (by omega) hc, countZ_of_le_seven _ h7, if_pos hr.symm, ← hr]
    exact hparts
  · intro hzero
    have hr : n.toInt.natAbs % 8 = 0 := by
      by_contra hne
      obtain ⟨c, hc⟩ := Option.isSome_iff_exists.mp ((get?_isSome_iff v (n.toInt.natAbs % 8)).mpr (by omega))
      exact (ne_zero_of_get?_acdsEncode_iff hok (by omega) (by omega) hc).mpr rfl
        (hzero _ c (by omega) (by omega) hc)
    simpa [hr] using hparts
  · intro hv
    have henc : encZ m.toInt = encZ n.toInt := by rw [← map_toInt_acdsEncode hok, ← map_toInt_acdsEncode hok, hv]
    rw [← BitVec.toInt_inj, ← weightedSum_encZ m.toInt, henc, weightedSum_encZ]

/-! ## Bounds (40_encoder.md R79) -/

section Bounds

variable {w : Widths}

theorem two_pow_pred_eq {k : Nat} (h : 4 ≤ k) : 2 ^ (k - 1) = 8 * 2 ^ (k - 4) := by
  rw [show k - 1 = 3 + (k - 4) by omega, pow_add]
  rfl

theorem four_le_nw (hok : w.ok = true) : 4 ≤ w.nw := by
  simp only [Widths.ok, Bool.and_eq_true, decide_eq_true_eq] at hok
  omega

theorem natAbs_toInt_of_nonneg {k : Nat} {n : BitVec k} (h : 0 ≤ n.toInt) : n.toInt.natAbs ≤ 2 ^ (k - 1) - 1 := by
  obtain ⟨-, hhi⟩ := fits_iff.mp (fits_toInt n)
  have hcast : ((2 ^ (k - 1) : Nat) : Int) = 2 ^ (k - 1) := by push_cast; rfl
  omega

theorem natAbs_toInt_of_neg {k : Nat} {n : BitVec k} (h : n.toInt < 0) : n.toInt.natAbs ≤ 2 ^ (k - 1) := by
  obtain ⟨hlo, -⟩ := fits_iff.mp (fits_toInt n)
  have hcast : ((2 ^ (k - 1) : Nat) : Int) = 2 ^ (k - 1) := by push_cast; rfl
  omega

/-- A nominal below 0 with no remainder. -/
theorem encZ_neg_eight_mul (m : Nat) : encZ (-(8 * m : Nat)) = ⟨0, 0, 0, 0, 0, 0, 0, -m⟩ := by
  rw [encZ_neg, encZ_eq_ofSlot]
  rcases Nat.eq_zero_or_pos m with rfl | hm
  · rfl
  · have hsign : ((8 * m : Nat) : Int).sign = 1 := Int.sign_eq_one_of_pos (by omega)
    simp only [Slots.ofSlot, Slots.map, countZ, hsign, Int.natAbs_natCast, Nat.mul_mod_right]
    simp

theorem natAbs_toInt_intMin {k : Nat} (h : 4 ≤ k) : (BitVec.intMin k).toInt.natAbs = 8 * 2 ^ (k - 4) := by
  rw [← toNat_absU_eq_natAbs, toNat_absU_intMin (by omega), two_pow_pred_eq h]

end Bounds

/-- Settles O16: the bounds of each sign, and the nominal that reaches the negative one. -/
theorem encoderNeverTruncates : Obligations.EncoderNeverTruncates := by
  intro w n hok
  have hpow := two_pow_pred_eq (four_le_nw hok)
  have hmin := natAbs_toInt_intMin (four_le_nw hok)
  have hwhole := fits_signed_whole hok n
  rw [BitVec.msb_eq_toInt, ← toNat_wholePart] at hwhole
  refine ⟨fun hn => ?_, fun hn => ?_, (fits_unit hok).1, (fits_unit hok).2,
    toNat_absU_intMin (widths_pos hok).1, ?_, ?_, ?_⟩
  · have hmag := natAbs_toInt_of_nonneg hn
    rw [toNat_absU_eq_natAbs]
    exact ⟨hmag, by rw [toNat_wholePart]; omega, by simpa [hn.not_gt] using hwhole⟩
  · have hmag := natAbs_toInt_of_neg hn
    rw [toNat_absU_eq_natAbs]
    exact ⟨hmag, by rw [toNat_wholePart]; omega, by simpa [hn] using hwhole⟩
  · rw [toNat_wholePart, hmin, Nat.mul_div_cancel_left _ (by decide)]
  · rw [eq_zero_iff_toNat, toNat_remainderPart, hmin, Nat.mul_mod_right]
  · have hint : (BitVec.intMin w.nw).toInt = -(8 * 2 ^ (w.nw - 4) : Nat) := by
      rw [BitVec.toInt_intMin_of_pos (widths_pos hok).1, ← hpow]
      push_cast
      rfl
    rw [map_toInt_acdsEncode hok, hint, encZ_neg_eight_mul]
    push_cast
    rfl

/-! ## The two instructions (40_encoder.md R73, R74, R81, R82) -/

section Instructions

theorem exec_encdb (n : Int) (s : State) :
    exec (.encdb n) s = .next { s with regs := acceptEnc 0b00#2 (wrap s.widths.nw n) s.regs } := rfl

theorem exec_encdr (n : Int) (s : State) :
    exec (.encdr n) s = .next { s with regs := acceptEnc 0b01#2 (wrap s.widths.nw n) s.regs } := rfl

variable {w : Widths} {n : Int}

theorem map_toInt_acdsEncode_wrap (hok : w.ok = true) (hn : fits w.nw n = true) :
    (acdsEncode (wrap w.nw n) : Slots (BitVec w.cw)).map BitVec.toInt = encZ n := by
  rw [map_toInt_acdsEncode hok, toInt_wrap_of_fits (widths_pos hok).1 hn]

theorem acdsEncode_wrap (hok : w.ok = true) (hn : fits w.nw n = true) :
    (acdsEncode (wrap w.nw n) : Slots (BitVec w.cw)) = (encZ n).map (wrap w.cw) := by
  rw [← map_toInt_acdsEncode_wrap hok hn, map_wrap_map_toInt]

/-- No slot of the source's encoding is narrowed. -/
theorem map_toInt_map_wrap_encZ (hok : w.ok = true) (hn : fits w.nw n = true) :
    ((encZ n).map (wrap w.cw)).map BitVec.toInt = encZ n := by
  rw [← acdsEncode_wrap hok hn, map_toInt_acdsEncode_wrap hok hn]

theorem acceptEnc_wrap (hok : w.ok = true) (hn : fits w.nw n = true) (op : BitVec 2) (r : Regs w) :
    acceptEnc op (wrap w.nw n) r =
      { r with rspValid := true, opr := op, ovf := false, rvec := (encZ n).map (wrap w.cw) } := by
  rw [← acdsEncode_wrap hok hn]
  rfl

end Instructions

/-- Settles O17: the acceptance of an ENC* command, with the source's encoding for the engine's. -/
theorem encdbWritesSourceEncoding : Obligations.EncdbWritesSourceEncoding := by
  intro n s hok hn
  rw [exec_encdb, acceptEnc_wrap hok hn]
  exact ⟨rfl, map_toInt_map_wrap_encZ hok hn⟩

/-- Settles O18, as O17 under the other op. -/
theorem encdrWritesSourceEncoding : Obligations.EncdrWritesSourceEncoding := by
  intro n s hok hn
  rw [exec_encdr, acceptEnc_wrap hok hn]
  exact ⟨rfl, map_toInt_map_wrap_encZ hok hn⟩

/-- Settles O19: both arms accept the same nominal, and acceptance puts its op into OPR alone. -/
theorem encodersDifferInTagOnly : Obligations.EncodersDifferInTagOnly := by
  intro n s
  exact ⟨acceptEnc 0b00#2 (wrap s.widths.nw n) s.regs, exec_encdb n s, exec_encdr n s,
    response_acceptEnc _ _ (by decide), response_acceptEnc (op := 0b01#2) _ s.regs (by decide)⟩

/-- Settles O20: the response is the nominal's encoding, whatever the registers held. -/
theorem encoderReadsNoRegister : Obligations.EncoderReadsNoRegister := by
  rintro n s ⟨w, r, inputs, resets⟩ hw
  obtain rfl : s.widths = w := hw
  exact ⟨(acdsEncode (wrap s.widths.nw n) : Slots (BitVec s.widths.cw)).map BitVec.toInt, _, _, _, _,
    exec_encdb n s, exec_encdb n _, exec_encdr n s, exec_encdr n _,
    response_acceptEnc _ _ (by decide), response_acceptEnc _ _ (by decide), response_acceptEnc _ _ (by decide),
    response_acceptEnc _ _ (by decide)⟩

end Sys2Proof.Machine

/-! The reducer: the delta, one repetition, the fold and the steps it is spread over, each held against the source's
functions over the integers (41_reducer.md R86 to R108). -/

namespace Sys2Proof.Machine

/-! ## One repetition over the integers (41_reducer.md R86, R98) -/

section Source

theorem deltaZ_eq_ediv (d : Int) (i : Nat) : deltaZ d i = d * i / 8 := fdiv_eight _

theorem deltaZ_zero (i : Nat) : deltaZ 0 i = 0 := by simp [deltaZ_eq_ediv]

@[simp] theorem adjustZ_up (i : Nat) (d : Int) : adjustZ i true d = d + deltaZ d i := rfl

@[simp] theorem adjustZ_down (i : Nat) (d : Int) : adjustZ i false d = d - deltaZ d i := rfl

variable {d : Int} {i : Nat}

theorem deltaZ_of_nonneg (h8 : i ≤ 8) (hd : 0 ≤ d) : 0 ≤ deltaZ d i ∧ deltaZ d i ≤ d := by
  have hlo : 0 ≤ d * i := by positivity
  have hhi : d * i ≤ d * 8 := Int.mul_le_mul_of_nonneg_left (by exact_mod_cast h8) hd
  rw [deltaZ_eq_ediv]
  omega

theorem deltaZ_of_neg (h1 : 1 ≤ i) (h8 : i ≤ 8) (hd : d < 0) : d ≤ deltaZ d i ∧ deltaZ d i ≤ -1 := by
  have hlo : d * 8 ≤ d * i := Int.mul_le_mul_of_nonpos_left hd.le (by exact_mod_cast h8)
  have hhi : d * i ≤ d * 1 := Int.mul_le_mul_of_nonpos_left hd.le (by exact_mod_cast h1)
  rw [deltaZ_eq_ediv]
  omega

theorem deltaZ_of_small (hd : 0 < d) (h : d * i < 8) : deltaZ d i = 0 := by
  have hlo : 0 ≤ d * i := by positivity
  rw [deltaZ_eq_ediv]
  omega

theorem deltaZ_neg_one (h1 : 1 ≤ i) (h8 : i ≤ 8) : deltaZ (-1) i = -1 := by
  obtain ⟨hlo, hhi⟩ := deltaZ_of_neg h1 h8 (d := -1) (by decide)
  omega

theorem adjustZ_nonneg (h8 : i ≤ 8) (up : Bool) (hd : 0 ≤ d) : 0 ≤ adjustZ i up d := by
  obtain ⟨hlo, hhi⟩ := deltaZ_of_nonneg h8 hd
  cases up with
  | true => rw [adjustZ_up]; omega
  | false => rw [adjustZ_down]; omega

theorem adjustZ_nonpos (h1 : 1 ≤ i) (h8 : i ≤ 8) (up : Bool) (hd : d ≤ 0) : adjustZ i up d ≤ 0 := by
  rcases hd.eq_or_lt with rfl | hneg
  · cases up <;> simp [deltaZ_zero]
  · obtain ⟨hlo, hhi⟩ := deltaZ_of_neg h1 h8 hneg
    cases up with
    | true => rw [adjustZ_up]; omega
    | false => rw [adjustZ_down]; omega

end Source

/-! ## The source's fold as its repetitions in order (41_reducer.md R91, R97, R100) -/

section SourceFold

/-- The counts of a vector beside their slot numbers, slot 1 first. -/
def numberedCounts (v : Slots Int) : List (Nat × Int) :=
  [(1, v.c1), (2, v.c2), (3, v.c3), (4, v.c4), (5, v.c5), (6, v.c6), (7, v.c7), (8, v.c8)]

/-- The repetitions `ps`, one after the other. -/
def adjustAllZ (ps : List (Nat × Bool)) (d : Int) : Int := ps.foldl (fun d p => adjustZ p.1 p.2 d) d

theorem adjustAllZ_cons (p : Nat × Bool) (ps : List (Nat × Bool)) (d : Int) :
    adjustAllZ (p :: ps) d = adjustAllZ ps (adjustZ p.1 p.2 d) := rfl

theorem repetitionsZ_eq_flatMap (ctx : Context) (v : Slots Int) :
    repetitionsZ ctx v =
      (numberedCounts v).flatMap fun ic => List.replicate ic.2.natAbs (ic.1, raisesZ ctx ic.2) := rfl

theorem applyZ_eq_foldl (ctx : Context) (d : Int) (v : Slots Int) :
    applyZ ctx d v = (numberedCounts v).foldl (fun d ic => slotZ ctx d ic.1 ic.2) d := rfl

/-- The test for a count of 0 in `SLOT_Z` is the case of no repetition. -/
theorem slotZ_eq_iterate (ctx : Context) (d : Int) (i : Nat) (c : Int) :
    slotZ ctx d i c = (adjustZ i (raisesZ ctx c))^[c.natAbs] d := by
  unfold slotZ
  split_ifs with hc
  · simp [hc]
  · rfl

theorem foldl_replicate_eq_iterate {α β : Type} (f : α → β → α) (n : Nat) (b : β) (a : α) :
    (List.replicate n b).foldl f a = (fun a => f a b)^[n] a := by
  induction n generalizing a with
  | zero => rfl
  | succ n ih => rw [List.replicate_succ, List.foldl_cons, ih, Function.iterate_succ_apply]

theorem applyZ_eq_adjustAllZ (ctx : Context) (d : Int) (v : Slots Int) :
    applyZ ctx d v = adjustAllZ (repetitionsZ ctx v) d := by
  simp only [applyZ_eq_foldl, slotZ_eq_iterate, adjustAllZ, repetitionsZ_eq_flatMap, List.foldl_flatMap,
    foldl_replicate_eq_iterate]

theorem getLast?_cons_pathOfZ (d : Int) (ps : List (Nat × Bool)) :
    (d :: pathOfZ d ps).getLast? = some (adjustAllZ ps d) := by
  induction ps generalizing d with
  | nil => rfl
  | cons p ps ih => rw [pathOfZ, List.getLast?_cons_cons, ih, adjustAllZ_cons]

theorem length_pathOfZ (d : Int) (ps : List (Nat × Bool)) : (pathOfZ d ps).length = ps.length := by
  induction ps generalizing d with
  | nil => rfl
  | cons p ps ih => rw [pathOfZ, List.length_cons, List.length_cons, ih]

theorem length_repetitionsZ (ctx : Context) (v : Slots Int) :
    (repetitionsZ ctx v).length = (v.toList.map Int.natAbs).sum := by
  rw [repetitionsZ_eq_flatMap, List.length_flatMap]
  simp [numberedCounts, Slots.toList]

theorem slot_of_mem_repetitionsZ {ctx : Context} {v : Slots Int} {p : Nat × Bool} (h : p ∈ repetitionsZ ctx v) :
    1 ≤ p.1 ∧ p.1 ≤ 8 := by
  rw [repetitionsZ_eq_flatMap] at h
  obtain ⟨ic, hic, hp⟩ := List.mem_flatMap.mp h
  have hslot : ic.1 ∈ (numberedCounts v).map Prod.fst := List.mem_map_of_mem hic
  rw [List.eq_of_mem_replicate hp]
  simp only [numberedCounts, List.map_cons, List.map_nil, List.mem_cons, List.not_mem_nil, or_false] at hslot
  omega

/-- What every repetition keeps holds of every damage value on the way. -/
theorem forall_mem_pathOfZ {P : Int → Prop} {ps : List (Nat × Bool)}
    (hstep : ∀ p ∈ ps, ∀ d, P d → P (adjustZ p.1 p.2 d)) {d : Int} (hd : P d) : ∀ z ∈ pathOfZ d ps, P z := by
  induction ps generalizing d with
  | nil => simp [pathOfZ]
  | cons p ps ih =>
    have hnext := hstep p List.mem_cons_self d hd
    intro z hz
    rw [pathOfZ, List.mem_cons] at hz
    rcases hz with rfl | hz
    · exact hnext
    · exact ih (fun q hq => hstep q (List.mem_cons_of_mem p hq)) hnext z hz

end SourceFold

/-- Settles O30: the path is that of the repetitions, which the fold makes in the same order. -/
theorem pathEndsInSourceResult : Obligations.PathEndsInSourceResult := by
  intro ctx d v
  rw [applyZ_eq_adjustAllZ, pathZ, length_pathOfZ, length_repetitionsZ]
  exact ⟨getLast?_cons_pathOfZ d _, rfl⟩

/-! ## One repetition in the engine (41_reducer.md R88, R90) -/

section Engine

theorem bmod_of_fits {n : Nat} {z : Int} (hn : 0 < n) (h : fits n z = true) : z.bmod (2 ^ n) = z := by
  have hwrap := toInt_wrap_of_fits hn h
  rwa [wrap, BitVec.toInt_ofInt] at hwrap

/-- Narrowing keeps a signed value that fits. -/
theorem toInt_setWidth_of_fits {m n : Nat} {x : BitVec m} (hn : 0 < n) (hnm : n ≤ m) (h : fits n x.toInt = true) :
    (x.setWidth n).toInt = x.toInt := by
  rw [← BitVec.signExtend_eq_setWidth_of_le x hnm, BitVec.toInt_signExtend, min_eq_left hnm, bmod_of_fits hn h]

theorem four_le_dw {w : Widths} (hok : w.ok = true) : 4 ≤ w.dw := by
  simp only [Widths.ok, Bool.and_eq_true, decide_eq_true_eq] at hok
  omega

variable {dw : Nat} {d : BitVec dw} {i : BitVec 4}

/-- `DW` bits and three more hold a slot number as a signed value. -/
theorem toInt_setWidth_slot (hdw : 4 ≤ dw) (h8 : i.toNat ≤ 8) : (i.setWidth (dw + 3)).toInt = i.toNat := by
  have hpow : 2 ^ 7 ≤ 2 ^ (dw + 3) := Nat.pow_le_pow_right (by decide) (by omega)
  have hnat : (i.setWidth (dw + 3)).toNat = i.toNat := by
    rw [BitVec.toNat_setWidth, Nat.mod_eq_of_lt (by omega)]
  rw [BitVec.toInt_eq_toNat_of_lt (by omega), hnat]

theorem product_bounds (hdw : 4 ≤ dw) (d : BitVec dw) (h8 : i.toNat ≤ 8) :
    -2 ^ (dw + 2) ≤ d.toInt * i.toNat ∧ d.toInt * i.toNat < 2 ^ (dw + 2) := by
  obtain ⟨hlo, hhi⟩ := fits_iff.mp (fits_toInt d)
  have hpow : (2 : Int) ^ (dw + 2) = 2 ^ (dw - 1) * 8 := by
    rw [show dw + 2 = dw - 1 + 3 by omega, pow_add]
    rfl
  have hi : (0 : Int) ≤ i.toNat ∧ (i.toNat : Int) ≤ 8 := by omega
  rw [hpow]
  constructor
  · nlinarith only [hlo, hhi, hi]
  · nlinarith only [hlo, hhi, hi]

theorem toInt_product (hdw : 4 ≤ dw) (d : BitVec dw) (h8 : i.toNat ≤ 8) :
    (d.signExtend (dw + 3) * i.setWidth (dw + 3)).toInt = d.toInt * i.toNat := by
  rw [BitVec.toInt_mul, BitVec.toInt_signExtend_of_le (by omega), toInt_setWidth_slot hdw h8]
  exact bmod_of_fits (by omega) (fits_iff.mpr (product_bounds hdw d h8))

/-- The delta lies between 0 and the damage, so it needs no more bits. -/
theorem fits_deltaZ (d : BitVec dw) (h1 : 1 ≤ i.toNat) (h8 : i.toNat ≤ 8) : fits dw (deltaZ d.toInt i.toNat) = true := by
  obtain ⟨hlo, hhi⟩ := fits_iff.mp (fits_toInt d)
  rw [fits_iff]
  rcases lt_or_ge d.toInt 0 with hd | hd
  · have hdelta := deltaZ_of_neg h1 h8 hd
    omega
  · have hdelta := deltaZ_of_nonneg h8 hd
    omega

theorem toInt_stepDelta (hdw : 4 ≤ dw) (d : BitVec dw) (h1 : 1 ≤ i.toNat) (h8 : i.toNat ≤ 8) :
    (stepDelta d i).toInt = deltaZ d.toInt i.toNat := by
  have hshift : ((d.signExtend (dw + 3) * i.setWidth (dw + 3)).sshiftRight 3).toInt = deltaZ d.toInt i.toNat := by
    rw [toInt_sshiftRight_three, toInt_product hdw d h8]
    rfl
  rw [stepDelta, if_pos ⟨h1, h8⟩, toInt_setWidth_of_fits (by omega) (by omega) (hshift ▸ fits_deltaZ d h1 h8), hshift]

/-- The engine's sum is the source's raise or lower, narrowed, and the flag says whether it fits. -/
theorem stepAdjust_eq (hdw : 4 ≤ dw) (d : BitVec dw) (h1 : 1 ≤ i.toNat) (h8 : i.toNat ≤ 8) (up : Bool) :
    stepAdjust d i up = (wrap dw (adjustZ i.toNat up d.toInt), !fits dw (adjustZ i.toNat up d.toInt)) := by
  have hsum : exactSum d i up = adjustZ i.toNat up d.toInt := by
    rw [exactSum, toInt_stepDelta hdw d h1 h8]
    rfl
  rw [stepAdjust, overflows, hsum]

theorem adjustOnce_eq (hdw : 4 ≤ dw) (d : BitVec dw) (h1 : 1 ≤ i.toNat) (h8 : i.toNat ≤ 8) (up ovf : Bool) :
    adjustOnce i up (d, ovf) =
      (wrap dw (adjustZ i.toNat up d.toInt), ovf || !fits dw (adjustZ i.toNat up d.toInt)) := by
  rw [adjustOnce, stepAdjust_eq hdw d h1 h8]

/-- A repetition whose delta is 0 changes nothing. -/
theorem adjustOnce_of_deltaZ_eq_zero (hdw : 4 ≤ dw) (h1 : 1 ≤ i.toNat) (h8 : i.toNat ≤ 8) (up ovf : Bool)
    (hdelta : deltaZ d.toInt i.toNat = 0) : adjustOnce i up (d, ovf) = (d, ovf) := by
  have hsame : adjustZ i.toNat up d.toInt = d.toInt := by cases up <;> simp [hdelta]
  rw [adjustOnce_eq hdw d h1 h8, hsame, wrap_toInt, fits_toInt, Bool.not_true, Bool.or_false]

end Engine

/-- Settles O21: the product, its narrowing after the shift, and the bounds of either sign. -/
theorem deltaIsExact : Obligations.DeltaIsExact := by
  intro w d i hok h1 h8
  have hdw := four_le_dw hok
  obtain ⟨hlo, hhi⟩ := product_bounds hdw d h8
  exact ⟨toInt_product hdw d h8, abs_le.mpr ⟨hlo, hhi.le⟩, toInt_stepDelta hdw d h1 h8, deltaZ_of_nonneg h8,
    deltaZ_of_neg h1 h8⟩

theorem not_fits_iff {n : Nat} {z : Int} :
    (!fits n z) = true ↔ ¬ (-(2 ^ (n - 1)) ≤ z ∧ z ≤ 2 ^ (n - 1) - 1) := by
  rw [Bool.not_eq_true', ← Bool.not_eq_true, fits_iff, Int.le_sub_one_iff]

/-- Settles O22: the narrowed sum by its formula, and by itself where it fits. -/
theorem stepWrapsAndFlags : Obligations.StepWrapsAndFlags := by
  intro w d i up hok h1 h8
  have hdw := four_le_dw hok
  rw [stepAdjust_eq hdw d h1 h8]
  exact ⟨not_fits_iff, fun h => toInt_wrap_of_fits (by omega) (by simpa using h), toInt_wrap (by omega) _⟩

/-- Settles O24: the bounds of the delta, at the bounds of the width, and along the path. -/
theorem oneStepBounds : Obligations.OneStepBounds := by
  refine ⟨fun d i h1 h8 => ?_, fun w d i hok h1 h8 => ?_, fun ctx d v => ⟨fun hd => ?_, fun hd => ?_⟩⟩
  · refine ⟨fun hd => ?_, fun hd => ?_, deltaZ_zero i⟩
    · have hdelta := deltaZ_of_nonneg h8 hd
      simp only [upZ, downZ]
      omega
    · have hdelta := deltaZ_of_neg h1 h8 hd
      simp only [upZ, downZ]
      omega
  · have hdw := four_le_dw hok
    obtain ⟨hlo, hhi⟩ := fits_iff.mp (fits_toInt d)
    have hhalf : (2 : Int) ^ (w.dw - 1) = 2 * 2 ^ (w.dw - 2) := by
      rw [show w.dw - 1 = w.dw - 2 + 1 by omega, pow_succ']
    have hdelta : (0 ≤ d.toInt ∧ 0 ≤ deltaZ d.toInt i.toNat ∧ deltaZ d.toInt i.toNat ≤ d.toInt) ∨
        (d.toInt < 0 ∧ d.toInt ≤ deltaZ d.toInt i.toNat ∧ deltaZ d.toInt i.toNat ≤ -1) :=
      (le_or_gt 0 d.toInt).imp (fun hd => ⟨hd, deltaZ_of_nonneg h8 hd⟩) (fun hd => ⟨hd, deltaZ_of_neg h1 h8 hd⟩)
    rw [stepAdjust_eq hdw d h1 h8, stepAdjust_eq hdw d h1 h8]
    refine ⟨?_, not_fits_iff, fun hl hh => ?_⟩
    · rw [adjustZ_down, Bool.not_eq_false', fits_iff]
      omega
    · rw [adjustZ_up, Bool.not_eq_false', fits_iff]
      omega
  · exact forall_mem_pathOfZ (fun p hp _ => adjustZ_nonneg (slot_of_mem_repetitionsZ hp).2 p.2) hd
  · exact forall_mem_pathOfZ
      (fun p hp _ => adjustZ_nonpos (slot_of_mem_repetitionsZ hp).1 (slot_of_mem_repetitionsZ hp).2 p.2) hd

/-- Settles O26: a delta of 0 above, and a delta of at most -1 below. -/
theorem smallDamagesAreFixedPoints : Obligations.SmallDamagesAreFixedPoints := by
  refine ⟨fun d i _ _ hd hsmall => ?_, fun d i h1 h8 hd => ?_, fun i h1 h8 => ?_,
    fun w d i up k hok h1 h8 hd hsmall => ?_, by decide, by decide⟩
  · have hdelta := deltaZ_of_small hd hsmall
    simp [upZ, downZ, hdelta]
  · obtain ⟨-, hhi⟩ := deltaZ_of_neg h1 h8 hd
    exact ⟨hhi, by rw [downZ]; omega, by rw [upZ]; omega⟩
  · simp [upZ, downZ, deltaZ_neg_one h1 h8]
  · exact Function.iterate_fixed
      (adjustOnce_of_deltaZ_eq_zero (four_le_dw hok) h1 h8 up false (deltaZ_of_small hd hsmall)) k

/-! ## Counts (41_reducer.md R89, R92, R94, R99) -/

section Counts

variable {cw : Nat} {c : BitVec cw}

theorem toNat_repetitions (c : BitVec cw) : (repetitions c).toNat = c.toInt.natAbs := toNat_absU_eq_natAbs c

theorem repetitions_eq_ofNat (c : BitVec cw) : repetitions c = BitVec.ofNat cw c.toInt.natAbs := by
  rw [← toNat_repetitions, BitVec.ofNat_toNat, BitVec.setWidth_eq]

@[simp] theorem repetitions_zero : repetitions 0#cw = 0#cw := by
  rw [repetitions_eq_ofNat, BitVec.toInt_zero, Int.natAbs_zero]

theorem raises_of_pos (hc : 0 < c.toInt) (ctx : Bool) : raises ctx c = !ctx := by
  simp [raises, BitVec.msb_eq_toInt, hc.not_gt]

theorem raises_of_neg (hc : c.toInt < 0) (ctx : Bool) : raises ctx c = ctx := by
  simp [raises, BitVec.msb_eq_toInt, hc]

/-- Of a count that asks for a repetition, the engine reads the source's direction. -/
theorem raises_eq_raisesZ (hc : c.toInt ≠ 0) (ctx : Bool) : raises ctx c = raisesZ (contextOf ctx) c.toInt := by
  rcases lt_or_gt_of_ne hc with hneg | hpos
  · rw [raises_of_neg hneg]
    cases ctx <;> simp [contextOf, raisesZ, hneg, hneg.le]
  · rw [raises_of_pos hpos]
    cases ctx <;> simp [contextOf, raisesZ, hpos, hpos.le]

theorem repetitions_neg (hc : c ≠ BitVec.intMin cw) : repetitions (-c) = repetitions c := by
  rw [repetitions_eq_ofNat, repetitions_eq_ofNat, BitVec.toInt_neg_of_ne_intMin hc, Int.natAbs_neg]

theorem raises_neg (h0 : c ≠ 0#cw) (hc : c ≠ BitVec.intMin cw) (ctx : Bool) : raises (!ctx) (-c) = raises ctx c := by
  have hmsb : (-c).msb = !c.msb := by simp [h0, hc]
  rw [raises, raises, hmsb]
  cases c.msb <;> cases ctx <;> rfl

theorem applySlot_zero {dw : Nat} (ctx : Bool) (i : BitVec 4) (a : BitVec dw × Bool) :
    applySlot ctx i 0#cw a = a := by
  simp [applySlot]

end Counts

/-- Settles O23: each column of the table, and the count with no repetition. -/
theorem directionFollowsTable : Obligations.DirectionFollowsTable := by
  intro cw c
  refine ⟨fun ctx => ?_, fun hpos => ?_, fun hneg => ?_, fun hzero dw ctx i a => ?_⟩
  · rw [raises, BitVec.msb_eq_getLsbD_last]
  · exact ⟨raises_of_pos hpos false, raises_of_pos hpos true⟩
  · exact ⟨raises_of_neg hneg false, raises_of_neg hneg true⟩
  · rw [(eq_zero_iff_toInt c).mpr hzero, applySlot_zero]

/-- Settles O27: no repetition is made. -/
theorem zeroCountIsSkipped : Obligations.ZeroCountIsSkipped :=
  fun _ _ => applySlot_zero

/-! ## The engine's fold as its repetitions in order (41_reducer.md R94, R97) -/

section EngineFold

variable {cw dw : Nat} (ctx : Bool) (v : Slots (BitVec cw))

/-- The repetitions the engine makes of a vector in order, each its slot and its direction. -/
def vectorRepetitions : List (BitVec 4 × Bool) :=
  slotNumbers.flatMap fun i => List.replicate (repetitions (readSlot v i)).toNat (i, raises ctx (readSlot v i))

/-- The repetitions `ps`, one after the other, on the running pair. -/
def adjustAll (ps : List (BitVec 4 × Bool)) (a : BitVec dw × Bool) : BitVec dw × Bool :=
  ps.foldl (fun a p => adjustOnce p.1 p.2 a) a

theorem acdsApply_eq_adjustAll (d : BitVec dw) : acdsApply ctx d v = adjustAll (vectorRepetitions ctx v) (d, false) := by
  simp only [acdsApply, applySlots, applySlot, adjustAll, vectorRepetitions, List.foldl_flatMap,
    foldl_replicate_eq_iterate]

theorem slot_of_mem_slotNumbers {i : BitVec 4} (h : i ∈ slotNumbers) : 1 ≤ i.toNat ∧ i.toNat ≤ 8 := by
  revert i
  decide

variable {ctx v} in
theorem slot_of_mem_vectorRepetitions {p : BitVec 4 × Bool} (h : p ∈ vectorRepetitions ctx v) :
    1 ≤ p.1.toNat ∧ p.1.toNat ≤ 8 := by
  obtain ⟨i, hi, hp⟩ := List.mem_flatMap.mp h
  rw [List.eq_of_mem_replicate hp]
  exact slot_of_mem_slotNumbers hi

theorem numberedCounts_map_toInt :
    numberedCounts (v.map BitVec.toInt) = slotNumbers.map fun i => (i.toNat, (readSlot v i).toInt) := rfl

/-- A repetition of the engine as one of the source. -/
def repetitionZ (p : BitVec 4 × Bool) : Nat × Bool := (p.1.toNat, p.2)

/-- The engine makes the source's repetitions, in the source's order. -/
theorem repetitionsZ_map_toInt :
    repetitionsZ (contextOf ctx) (v.map BitVec.toInt) = (vectorRepetitions ctx v).map repetitionZ := by
  rw [repetitionsZ_eq_flatMap, numberedCounts_map_toInt, vectorRepetitions, List.flatMap_map, List.map_flatMap]
  refine List.flatMap_congr fun i _ => ?_
  rw [List.map_replicate, toNat_repetitions]
  by_cases hc : (readSlot v i).toInt = 0
  · simp [hc]
  · rw [raises_eq_raisesZ hc]
    rfl

theorem adjustAll_cons (hdw : 4 ≤ dw) {p : BitVec 4 × Bool} {ps : List (BitVec 4 × Bool)} (d : BitVec dw) {ovf : Bool}
    (h1 : 1 ≤ p.1.toNat) (h8 : p.1.toNat ≤ 8) :
    adjustAll (p :: ps) (d, ovf) =
      adjustAll ps (wrap dw (adjustZ p.1.toNat p.2 d.toInt), ovf || !fits dw (adjustZ p.1.toNat p.2 d.toInt)) := by
  rw [← adjustOnce_eq hdw d h1 h8]
  rfl

/-- The flag stays clear exactly as long as the source's values fit, and then the damage is the source's. -/
theorem adjustAll_spec (hdw : 4 ≤ dw) {ps : List (BitVec 4 × Bool)}
    (hps : ∀ p ∈ ps, 1 ≤ p.1.toNat ∧ p.1.toNat ≤ 8) (d : BitVec dw) (ovf : Bool) :
    ((adjustAll ps (d, ovf)).2 = false ↔
      ovf = false ∧ ∀ z ∈ pathOfZ d.toInt (ps.map repetitionZ), fits dw z = true) ∧
    ((adjustAll ps (d, ovf)).2 = false → (adjustAll ps (d, ovf)).1.toInt = adjustAllZ (ps.map repetitionZ) d.toInt) := by
  induction ps generalizing d ovf with
  | nil => simp [adjustAll, adjustAllZ, pathOfZ]
  | cons p ps ih =>
    obtain ⟨h1, h8⟩ := hps p List.mem_cons_self
    rw [adjustAll_cons hdw d h1 h8, List.map_cons, pathOfZ, adjustAllZ_cons]
    simp only [repetitionZ]
    generalize adjustZ p.1.toNat p.2 d.toInt = z
    obtain ⟨hflag, hdamage⟩ := ih (fun q hq => hps q (List.mem_cons_of_mem p hq)) (wrap dw z) (ovf || !fits dw z)
    cases hz : fits dw z with
    | true =>
      rw [toInt_wrap_of_fits (by omega) hz] at hflag hdamage
      simpa [hz] using And.intro hflag hdamage
    | false =>
      have hset : (adjustAll ps (wrap dw z, true)).2 = true := by simpa [hz] using hflag
      simp [hset, hz]

end EngineFold

/-- Settles O29: both folds make the same repetitions. -/
theorem foldAgreesWithSource : Obligations.FoldAgreesWithSource := by
  intro w ctx d v hok
  have hspec := adjustAll_spec (four_le_dw hok) (fun _ => slot_of_mem_vectorRepetitions (ctx := ctx) (v := v)) d false
  rw [acdsApply_eq_adjustAll, applyZ_eq_adjustAllZ, pathZ, repetitionsZ_map_toInt]
  simpa using hspec

/-- Settles O25: the delta of damage 0 is 0 at every slot. -/
theorem zeroDamageIsAbsorbing : Obligations.ZeroDamageIsAbsorbing := by
  intro w ctx v hok
  have hfixed : ∀ p ∈ vectorRepetitions ctx v, adjustOnce p.1 p.2 (0#w.dw, false) = (0#w.dw, false) := by
    intro p hp
    obtain ⟨h1, h8⟩ := slot_of_mem_vectorRepetitions hp
    exact adjustOnce_of_deltaZ_eq_zero (four_le_dw hok) h1 h8 p.2 false (by rw [BitVec.toInt_zero, deltaZ_zero])
  rw [acdsApply_eq_adjustAll]
  exact List.foldlRecOn (motive := (· = (0#w.dw, false))) _ _ rfl fun a ha p hp => by rw [ha, hfixed p hp]

/-- Settles O28: no slot asks for a repetition. -/
theorem zeroVectorReturnsDamage : Obligations.ZeroVectorReturnsDamage := by
  intro cw dw ctx d
  have hslot : ∀ i ∈ slotNumbers, readSlot (Slots.fill 0#cw) i = 0#cw := by
    simp [slotNumbers, readSlot, Slots.get?, Slots.fill]
  exact List.foldlRecOn (motive := (· = (d, false))) _ _ rfl fun a ha i hi => by
    rw [hslot i hi, applySlot_zero, ha]

/-- Settles O31: both folds evaluated. -/
theorem overflowedFoldDiffersFromSource : Obligations.OverflowedFoldDiffersFromSource := by
  unfold Obligations.OverflowedFoldDiffersFromSource
  decide

/-- Settles O33: the folds evaluated. -/
theorem orderMattersAndNoRoundTrip : Obligations.OrderMattersAndNoRoundTrip := by
  unfold Obligations.OrderMattersAndNoRoundTrip
  decide

/-! ## The two polarities (41_reducer.md R99) -/

theorem repetitionsZ_dr (v : Slots Int) : repetitionsZ .dr v = repetitionsZ .db (v.map fun c => -c) := by
  have hnumbered : numberedCounts (v.map fun c => -c) = (numberedCounts v).map fun ic => (ic.1, -ic.2) := rfl
  rw [repetitionsZ_eq_flatMap, repetitionsZ_eq_flatMap, hnumbered, List.flatMap_map]
  refine List.flatMap_congr fun ic _ => ?_
  simp [raisesZ]

theorem readSlot_map {cw : Nat} (f : BitVec cw → BitVec cw) (v : Slots (BitVec cw)) {i : BitVec 4}
    (hi : 1 ≤ i.toNat ∧ i.toNat ≤ 8) : readSlot (v.map f) i = f (readSlot v i) := by
  obtain ⟨c, hc⟩ := Option.isSome_iff_exists.mp ((get?_isSome_iff v i.toNat).mpr hi)
  rw [readSlot_of_get? hc, readSlot_of_get? (by rw [get?_map, hc]; rfl)]

theorem readSlot_mem_toList {cw : Nat} (v : Slots (BitVec cw)) {i : BitVec 4} (h : i ∈ slotNumbers) :
    readSlot v i ∈ v.toList := by
  have hlist : v.toList = slotNumbers.map (readSlot v) := rfl
  rw [hlist]
  exact List.mem_map_of_mem h

theorem vectorRepetitions_true {cw : Nat} {v : Slots (BitVec cw)} (hv : ∀ c ∈ v.toList, c ≠ BitVec.intMin cw) :
    vectorRepetitions true v = vectorRepetitions false (v.map fun c => -c) := by
  refine List.flatMap_congr fun i hi => ?_
  have hmin := hv _ (readSlot_mem_toList v hi)
  rw [readSlot_map _ v (slot_of_mem_slotNumbers hi), repetitions_neg hmin]
  by_cases h0 : readSlot v i = 0#cw
  · simp [h0]
  · rw [← raises_neg h0 hmin true]
    rfl

/-- Settles O32: either fold makes the same repetitions of both vectors. -/
theorem polaritiesAreDual : Obligations.PolaritiesAreDual := by
  refine ⟨fun d v => ?_, fun cw dw d v hv => ?_⟩
  · rw [applyZ_eq_adjustAllZ, applyZ_eq_adjustAllZ, repetitionsZ_dr]
  · rw [acdsApply_eq_adjustAll, acdsApply_eq_adjustAll, vectorRepetitions_true hv]

/-! ## The two instructions (41_reducer.md R95, R96) -/

section Instructions

theorem exec_appdb (d : Int) (v : Slots Int) (s : State) :
    exec (.appdb d v) s = .next
      { s with regs := acceptApp 0b10#2 (wrap s.widths.dw d) (v.map (wrap s.widths.cw)) s.regs } := rfl

theorem exec_appdr (d : Int) (v : Slots Int) (s : State) :
    exec (.appdr d v) s = .next
      { s with regs := acceptApp 0b11#2 (wrap s.widths.dw d) (v.map (wrap s.widths.cw)) s.regs } := rfl

variable {w : Widths} {d : Int} {v : Slots Int}

/-- Operands that fit stand for the integers they were narrowed from. -/
theorem toInt_wrap_operands (hok : w.ok = true) (h : (fits w.dw d && v.toList.all (fits w.cw)) = true) :
    (wrap w.dw d).toInt = d ∧ (v.map (wrap w.cw)).map BitVec.toInt = v := by
  obtain ⟨hd, hv⟩ := Bool.and_eq_true_iff.mp h
  obtain ⟨-, hcw, hdw⟩ := widths_pos hok
  exact ⟨toInt_wrap_of_fits hdw hd, map_toInt_map_wrap hcw hv⟩

/-- Acceptance with the first count's magnitude as an integer, for a vector that fits. -/
theorem acceptApp_wrap (hv : (v.map (wrap w.cw)).map BitVec.toInt = v) (op : BitVec 2) (r : Regs w) :
    acceptApp op (wrap w.dw d) (v.map (wrap w.cw)) r =
      { busy := true, rspValid := false, opr := op, ovf := false, dmg := wrap w.dw d, vec := v.map (wrap w.cw),
        rvec := r.rvec, idx := 1#4, rep := BitVec.ofNat w.cw v.c1.natAbs } := by
  have hc1 : (v.map (wrap w.cw)).c1.toInt = v.c1 := congrArg Slots.c1 hv
  rw [← hc1, ← repetitions_eq_ofNat]
  rfl

/-- The magnitude of a count that fits is a value of `REP`. -/
theorem natAbs_lt_of_map_wrap (hv : (v.map (wrap w.cw)).map BitVec.toInt = v) : v.c1.natAbs < 2 ^ w.cw := by
  have hc1 : (v.map (wrap w.cw)).c1.toInt = v.c1 := congrArg Slots.c1 hv
  rw [← hc1, ← toNat_repetitions]
  exact (repetitions _).isLt

end Instructions

/-- Settles O34: no operand is narrowed, and acceptance copies them. -/
theorem appdbCopiesOperands : Obligations.AppdbCopiesOperands := by
  intro d v s hok hwf
  obtain ⟨hd, hv⟩ := toInt_wrap_operands hok hwf
  exact ⟨wrap _ d, v.map (wrap _), hd, hv, by rw [exec_appdb, acceptApp_wrap hv],
    natAbs_lt_of_map_wrap hv⟩

/-- Settles O35, as O34 under the other op. -/
theorem appdrCopiesOperands : Obligations.AppdrCopiesOperands := by
  intro d v s hok hwf
  obtain ⟨hd, hv⟩ := toInt_wrap_operands hok hwf
  exact ⟨wrap _ d, v.map (wrap _), hd, hv, by rw [exec_appdr, acceptApp_wrap hv],
    natAbs_lt_of_map_wrap hv⟩

/-! ## The steps of the fold (41_reducer.md R104 to R108) -/

section Steps

variable {w : Widths}

theorem repetitionStep_eq (hdw : 4 ≤ w.dw) {r : Regs w} {c : BitVec w.cw} (hc : r.vec.get? r.idx.toNat = some c) :
    repetitionStep r =
      { r with
        dmg := wrap w.dw (adjustZ r.idx.toNat (raises (contextBit r.opr) c) r.dmg.toInt)
        ovf := r.ovf || !fits w.dw (adjustZ r.idx.toNat (raises (contextBit r.opr) c) r.dmg.toInt)
        rep := r.rep - 1#w.cw } := by
  obtain ⟨h1, h8⟩ := (get?_isSome_iff r.vec r.idx.toNat).mp (by simp [hc])
  simp only [repetitionStep, readSlot_of_get? hc, stepAdjust_eq hdw r.dmg h1 h8]

/-- `REP` is at most the repetitions of the slot's count, so the count is not 0 where `REP` is not. -/
theorem count_ne_zero_of_legal {r : Regs w} (hlegal : r.legal) (hbusy : r.busy = true) (hrep : r.rep ≠ 0#w.cw)
    {c : BitVec w.cw} (hc : r.vec.get? r.idx.toNat = some c) : c ≠ 0#w.cw := by
  rintro rfl
  obtain ⟨-, -, -, -, hle⟩ := hlegal.1 hbusy
  obtain ⟨-, hpos⟩ := toNat_pred hrep
  rw [readSlot_of_get? hc, repetitions_zero, BitVec.toNat_zero] at hle
  omega

theorem slotAdvanceStep_eq {r : Regs w} {c : BitVec w.cw} (hc : r.vec.get? (r.idx.toNat + 1) = some c) :
    slotAdvanceStep r = { r with idx := r.idx + 1#4, rep := BitVec.ofNat w.cw c.toInt.natAbs } := by
  obtain ⟨-, h8⟩ := (get?_isSome_iff r.vec (r.idx.toNat + 1)).mp (by simp [hc])
  rw [← toNat_slot_succ (by omega)] at hc
  rw [slotAdvanceStep, readSlot_of_get? hc, repetitions_eq_ofNat]

/-- A busy engine's whole next state, from its reducer step. -/
theorem step_of_reducerStep {s : State} {r : Regs s.widths} (hrst : s.sampled.rst = false)
    (hbusy : s.regs.busy = true) (hr : reducerStep s.regs = r) :
    step s = .next { s with regs := r, inputs := s.inputs.tail } :=
  hr ▸ step_of_busy hrst hbusy

end Steps

/-- Settles O36: the step is the repetition step, and its sum the source's. -/
theorem repetitionStepAdjustsDamage : Obligations.RepetitionStepAdjustsDamage := by
  intro s c hok hrst hbusy hrep hc
  refine ⟨?_, fun hlegal => count_ne_zero_of_legal hlegal hbusy hrep hc⟩
  exact step_of_reducerStep hrst hbusy ((reducerStep_of_rep_ne hrep).trans (repetitionStep_eq (four_le_dw hok) hc))

/-- Settles O37: the step is the slot-advance step, and slot `IDX + 1` the next count. -/
theorem slotAdvanceLoadsNextCount : Obligations.SlotAdvanceLoadsNextCount := by
  intro s c _ hrst hbusy hrep hidx hc
  exact step_of_reducerStep hrst hbusy ((reducerStep_of_idx_ne hrep hidx).trans (slotAdvanceStep_eq hc))

/-- Settles O39: the four clauses of the invariant. -/
theorem foldProgressIsKept : Obligations.FoldProgressIsKept :=
  fun _ d v op r => ⟨foldAt_acceptApp op d v r, foldAt_repetitionStep, foldAt_slotAdvanceStep, foldAt_done⟩

/-! ## The whole fold, under every op (41_reducer.md R108) -/

section UnitBit

variable {w : Widths}

/-- Of `OPR`, a reducer step reads the context bit alone. -/
theorem reducerStep_withOpr (r : Regs w) {op : BitVec 2} (h : contextBit op = contextBit r.opr) :
    reducerStep { r with opr := op } = { reducerStep r with opr := op } := by
  unfold reducerStep repetitionStep
  simp only [h]
  split_ifs <;> rfl

theorem reduceFor_withOpr (k : Nat) (r : Regs w) {op : BitVec 2} (h : contextBit op = contextBit r.opr) :
    reduceFor k { r with opr := op } = { reduceFor k r with opr := op } := by
  induction k generalizing r with
  | zero => rfl
  | succ k ih =>
    simp only [reduceFor]
    split_ifs
    · rw [reducerStep_withOpr r h, ih _ (by rw [h, reducerStep_opr])]
    · rfl

/-- The reducer's op with the context of `op`. -/
def reducerOp (op : BitVec 2) : BitVec 2 := op ||| 0b10#2

theorem unitBit_reducerOp (op : BitVec 2) : unitBit (reducerOp op) = true := by simp [unitBit, reducerOp]

theorem contextBit_reducerOp (op : BitVec 2) : contextBit (reducerOp op) = contextBit op := by
  simp [contextBit, reducerOp]

theorem reduceFor_acceptApp_reducerOp (k : Nat) (op : BitVec 2) (d : BitVec w.dw) (v : Slots (BitVec w.cw))
    (r : Regs w) :
    reduceFor k (acceptApp op d v r) = { reduceFor k (acceptApp (reducerOp op) d v r) with opr := op } :=
  reduceFor_withOpr k (acceptApp (reducerOp op) d v r) (contextBit_reducerOp op).symm

end UnitBit

/-- Settles O40: under the reducer's op the registers are legal and the steps end with the fold; the unit bit is read by
none of them. -/
theorem sequencingComputesFold : Obligations.SequencingComputesFold := by
  intro w op d v r
  obtain ⟨k, hbusy, hend⟩ := exists_reduceFor_endsWith (acceptApp_legal r d v (unitBit_reducerOp op)) rfl
  have hfold := hend.fold_eq d (foldAt_acceptApp (reducerOp op) d v r)
  rw [acceptApp_opr, contextBit_reducerOp] at hfold
  refine ⟨k, fun j hj => ?_, ?_⟩
  · rw [reduceFor_acceptApp_reducerOp]
    exact hbusy j hj
  · rw [reduceFor_acceptApp_reducerOp]
    exact ⟨hend.busy_eq, hend.rspValid_eq, rfl, hend.vec_eq, hend.rvec_eq, hfold⟩

end Sys2Proof.Machine

/-! Command sequencing: the kinds of step, each with its whole next state, and runs: from the acceptance of an APP* to
its outcome, and the observation of a run against its contract (42_command_sequencing.md R110 to R119). -/

namespace Sys2Proof.Machine

variable {w : Widths}

/-! ## The registers after each kind of step -/

/-- Settles O41: every step answers the state of its ports and registers. -/
theorem stepIsTotal : Obligations.StepIsTotal := fun s => ⟨_, step_eq_nextRegs s⟩

/-- Settles O45: a busy engine takes a reset step or a reducer step, and neither reads the command ports. -/
theorem busyEngineIgnoresCommands : Obligations.BusyEngineIgnoresCommands := by
  intro w r a b rest k hbusy heq
  cases hrst : b.rst with
  | true => exact ⟨_, step_of_rst (s := ⟨w, r, a :: rest, k⟩) (heq.trans hrst), step_of_rst hrst⟩
  | false =>
    exact ⟨_, step_of_busy (s := ⟨w, r, a :: rest, k⟩) (heq.trans hrst) hbusy, step_of_busy hrst hbusy⟩

/-- Settles O46: only the ports are consumed. -/
theorem idleStepChangesNoRegister : Obligations.IdleStepChangesNoRegister :=
  fun _ hrst hbusy hvalid => ⟨_, step_of_idle hrst hbusy hvalid, rfl, rfl⟩

theorem response_completionStep {r : Regs w} (hunit : unitBit r.opr = true) :
    response (completionStep r) = .damage r.opr r.dmg.toInt r.ovf :=
  response_eq_damage_iff.mpr ⟨rfl, hunit, rfl, rfl, rfl⟩

/-- Settles O38: the reducer step is the completion step. -/
theorem completionPresentsResponse : Obligations.CompletionPresentsResponse :=
  fun _ hrst hbusy hrep hidx =>
    ⟨_, step_of_reducerStep hrst hbusy (reducerStep_of_done hrep hidx), rfl, rfl, response_completionStep⟩

/-! ## Acceptance -/

theorem acceptCommand_of_enc {c : Command w} (hunit : unitBit c.op = false) (r : Regs w) :
    acceptCommand c r = acceptEnc c.op c.nominal r := by
  simp [acceptCommand, hunit]

theorem acceptCommand_of_app {c : Command w} (hunit : unitBit c.op = true) (r : Regs w) :
    acceptCommand c r = acceptApp c.op c.damage (unpack c.vec) r := by
  simp [acceptCommand, hunit]

theorem step_of_acceptance {s : State} (hrst : s.sampled.rst = false) (hbusy : s.regs.busy = false)
    (hvalid : s.sampled.cmdValid = true) :
    step s = .next { s with regs := acceptCommand s.sampled.cmd s.regs, inputs := s.inputs.tail } :=
  (step_of_cmdValid hrst hbusy hvalid).trans (exec_decode s.afterSample s.sampled.cmd)

/-- A number that decodes is read as the command in its bits. -/
theorem decode_eq_of_ok {x : Nat} {i : Instr} (h : decode w x = .ok i) : (Command.ofNat (w := w) x).decode = i := by
  have hlt : x < 2 ^ w.commandBits := (exists_decode_eq_ok_iff w x).mp ⟨i, h⟩
  exact Except.ok.inj ((decode_of_lt hlt).symm.trans h)

theorem decode_of_decodeTableWord {nbits x : Nat} {i : Instr} (h : decodeTableWord nbits x = some i) :
    decode Config.ref (x % 2 ^ nbits) = .ok i := by
  unfold decodeTableWord at h
  cases hdecode : decode Config.ref (x % 2 ^ nbits) with
  | error e => rw [hdecode] at h; cases h
  | ok j => rw [hdecode] at h; cases h; rfl

theorem step_withFetchWord {s : State} {nbits x : Nat} {i : Instr} (h : decode s.widths (x % 2 ^ nbits) = .ok i) :
    step (s.withFetchWord nbits x) = exec i { s with regs := { s.regs with busy := false } } :=
  decode_eq_of_ok h ▸ step_of_cmdValid (s := s.withFetchWord nbits x) rfl rfl rfl

/-- Settles O42: the ports of an acceptance step, of a placed word, and of one placed in the state after reset. -/
theorem stepRunsPresentedInstruction : Obligations.StepRunsPresentedInstruction :=
  ⟨fun _ => step_of_cmdValid, fun _ _ _ _ => step_withFetchWord,
    fun _ _ _ h _ => step_withFetchWord (s := State.reset) (decode_of_decodeTableWord h)⟩

/-- An accepted ENC* answers with the source's encoding (40_encoder.md R80). -/
theorem response_acceptEnc_eq_encZ (hok : w.ok = true) {op : BitVec 2} (hunit : unitBit op = false)
    (n : BitVec w.nw) (r : Regs w) : response (acceptEnc op n r) = .vector op (encZ n.toInt) := by
  rw [response_acceptEnc n r hunit, map_toInt_acdsEncode hok]

/-- Settles O43: the acceptance of the encoder's ops. -/
theorem encodeCompletesAtAcceptance : Obligations.EncodeCompletesAtAcceptance := by
  intro s hok hrst hbusy hvalid hunit
  have hstep := step_of_acceptance hrst hbusy hvalid
  rw [acceptCommand_of_enc hunit] at hstep
  exact ⟨_, hstep, rfl, response_acceptEnc_eq_encZ hok hunit _ _, by simp [cmdReady, hbusy]⟩

theorem unpack_c1 {cw : Nat} (b : BitVec (8 * cw)) : (unpack b).c1 = b.extractLsb' 0 cw :=
  congrArg (b.extractLsb' · cw) (Nat.zero_mul cw)

/-- Settles O44: the acceptance of the reducer's ops. -/
theorem applyAcceptanceCopiesPorts : Obligations.ApplyAcceptanceCopiesPorts := by
  intro s hrst hbusy hvalid hunit
  have hstep := step_of_acceptance hrst hbusy hvalid
  rw [acceptCommand_of_app hunit] at hstep
  refine ⟨_, hstep, ?_, response_eq_none_iff.mpr rfl, rfl⟩
  rw [← unpack_c1]
  rfl

/-! ## How long a response stays -/

theorem stepKind_eq_reset_iff {inp : Inputs w} {r : Regs w} : stepKind inp r = .reset ↔ inp.rst = true := by
  unfold stepKind reducerKind
  split_ifs <;> simp_all

theorem stepKind_eq_acceptance_iff {inp : Inputs w} {r : Regs w} :
    stepKind inp r = .acceptance ↔ inp.rst = false ∧ r.busy = false ∧ inp.cmdValid = true := by
  unfold stepKind reducerKind
  split_ifs <;> simp_all

/-- A response is presented only while no command is in progress. -/
theorem not_busy_of_response {r : Regs w} (hlegal : r.legal) (hresponse : response r ≠ .none) : r.busy = false := by
  have hvalid : r.rspValid = true := by simpa [response_eq_none_iff] using hresponse
  simpa [hvalid] using not_busy_and_rspValid hlegal

/-- Settles O47: an engine that presents a response is not busy, so its step is a reset, an acceptance or idle. -/
theorem responseLastsUntilAcceptance : Obligations.ResponseLastsUntilAcceptance := by
  intro s t hlegal hresponse hstep
  obtain ⟨hok, hregs⟩ := hlegal
  have hbusy : s.regs.busy = false := not_busy_of_response hregs hresponse
  refine ⟨fun hacceptance hreset => ?_, fun hreset => ?_, fun hacceptance hunit => ?_, fun hacceptance hunit => ?_⟩
  · have hrst : s.sampled.rst = false := by simpa [stepKind_eq_reset_iff] using hreset
    have hvalid : s.sampled.cmdValid = false := by simpa [stepKind_eq_acceptance_iff, hrst, hbusy] using hacceptance
    cases (step_of_idle hrst hbusy hvalid).symm.trans hstep
    rfl
  · cases (step_of_rst (stepKind_eq_reset_iff.mp hreset)).symm.trans hstep
    exact response_eq_none_iff.mpr rfl
  · obtain ⟨hrst, -, hvalid⟩ := stepKind_eq_acceptance_iff.mp hacceptance
    obtain ⟨u, hu, -, hnone, -⟩ := applyAcceptanceCopiesPorts s hrst hbusy hvalid hunit
    cases hu.symm.trans hstep
    exact hnone
  · obtain ⟨hrst, -, hvalid⟩ := stepKind_eq_acceptance_iff.mp hacceptance
    obtain ⟨u, hu, -, hvector, -⟩ := encodeCompletesAtAcceptance s hok hrst hbusy hvalid hunit
    cases hu.symm.trans hstep
    exact hvector

/-! ## From the acceptance of an APP* to its outcome -/

theorem sampled_rst_of_noReset {s : State} (h : NoReset s) : s.sampled.rst = false := by
  unfold State.sampled
  cases hinputs : s.inputs with
  | nil => rfl
  | cons inp rest => exact h inp (by simp [hinputs])

theorem NoReset.afterSample {s : State} (h : NoReset s) : NoReset s.afterSample :=
  fun inp hinp => h inp (List.mem_of_mem_tail hinp)

theorem BusyFor.mono {j k : Nat} {r : Regs w} (h : BusyFor k r) (hjk : j ≤ k) : BusyFor j r :=
  fun i hi => h i (by omega)

/-- Without reset, a busy engine takes its reducer steps whatever the host drives. -/
theorem stateAfter_of_busyFor {k : Nat} {s : State} (hbusy : BusyFor k s.regs) (hreset : NoReset s) :
    stateAfter k s = some { s with regs := reduceFor k s.regs, inputs := s.inputs.drop k } := by
  induction k generalizing s with
  | zero => rfl
  | succ k ih =>
    obtain ⟨⟨hr, -⟩, hrest⟩ := (busyFor_succ_iff k).mp hbusy
    have hstep := step_of_busy (sampled_rst_of_noReset hreset) hr
    rw [stateAfter_succ k hstep,
      ih (s := { s.afterSample with regs := reducerStep s.regs }) hrest hreset.afterSample]
    simp [reduceFor_succ hr, State.afterSample]

/-- The outcome of an APP* under `op` on a damage and a vector: the fold. -/
def foldOutcome (op : BitVec 2) (d : BitVec w.dw) (v : Slots (BitVec w.cw)) : Response :=
  .damage op (acdsApply (contextBit op) d v).1.toInt (acdsApply (contextBit op) d v).2

theorem contractOutcome_of_enc {c : Command w} (hunit : unitBit c.op = false) :
    contractOutcome c = .vector c.op (encZ c.nominal.toInt) := by
  simp [contractOutcome, hunit]

theorem contractOutcome_of_app {c : Command w} (hunit : unitBit c.op = true) :
    contractOutcome c = foldOutcome c.op c.damage (unpack c.vec) := by
  simp [contractOutcome, foldOutcome, hunit]

/-- Settles O53: the acceptance step, and then the reducer steps that the accepted command is answered after. -/
theorem acceptedApplyReachesOutcome : Obligations.AcceptedApplyReachesOutcome := by
  intro s hok hreset hbusy hvalid hunit
  obtain ⟨k, hk, hidle, -, hresponse⟩ := acceptCommand_answers hok s.sampled.cmd hbusy
  rw [contractOutcome_of_app hunit] at hresponse
  have hrun : ∀ j, j ≤ k → stateAfter (j + 1) s = some
      { s with regs := reduceFor j (acceptCommand s.sampled.cmd s.regs), inputs := s.inputs.tail.drop j } := by
    intro j hj
    rw [stateAfter_succ j (step_of_acceptance (sampled_rst_of_noReset hreset) hbusy hvalid)]
    exact stateAfter_of_busyFor (hk.mono hj) hreset.afterSample
  refine ⟨k + 1, _, k.succ_pos, hrun k le_rfl, fun j hpos hj => ?_, by simp [cmdReady, hidle], hresponse,
    (foldAgreesWithSource _ _ _ _ hok).2⟩
  obtain ⟨i, rfl⟩ := Nat.exists_eq_add_one_of_ne_zero hpos.ne'
  obtain ⟨hbusyAt, hnone⟩ := hk i (by omega)
  exact ⟨_, hrun i (by omega), response_eq_none_iff.mpr hnone, by simp [cmdReady, hbusyAt]⟩

/-! ## The observation and the contract, step by step (42_command_sequencing.md R118, R119) -/

/-- The registers after a step of a given kind. -/
def regsAfterKind (kind : StepKind) (c : Command w) (k : Nat) (r : Regs w) : Regs w :=
  match kind with
  | .reset => resetRegs w k
  | .repetition => repetitionStep r
  | .slotAdvance => slotAdvanceStep r
  | .completion => completionStep r
  | .acceptance => acceptCommand c r
  | .idle => r

theorem nextRegs_eq_regsAfterKind (inp : Inputs w) (k : Nat) (r : Regs w) :
    nextRegs inp k r = regsAfterKind (stepKind inp r) inp.cmd k r := by
  unfold nextRegs stepKind reducerKind reducerStep
  split_ifs <;> rfl

/-- The outcome the contract demands of a step of a given kind, `pending` being due for the command in progress. -/
def demanded (kind : StepKind) (c : Command w) (pending : Option Response) : Option Response :=
  match kind with
  | .acceptance => if unitBit c.op then none else some (contractOutcome c)
  | .completion => pending
  | .reset | .repetition | .slotAdvance | .idle => none

/-- The outcome due for the command in progress after a step of a given kind. -/
def pendingAfter (kind : StepKind) (c : Command w) (pending : Option Response) : Option Response :=
  match kind with
  | .reset | .completion => none
  | .acceptance => if unitBit c.op then some (contractOutcome c) else none
  | .repetition | .slotAdvance | .idle => pending

theorem contractRun_succ {s t : State} (k : Nat) (pending : Option Response) (h : step s = .next t) :
    contractRun (k + 1) pending s =
      (demanded (stepKind s.sampled s.regs) s.sampled.cmd pending).toList ++
        contractRun k (pendingAfter (stepKind s.sampled s.regs) s.sampled.cmd pending) t := by
  simp only [contractRun, h, demanded, pendingAfter]
  cases stepKind s.sampled s.regs with
  | acceptance => cases unitBit s.sampled.cmd.op <;> simp
  | reset | repetition | slotAdvance | completion | idle => rfl

/-- While a command is in progress, it is an APP*, the registers are a stage of its fold, and the outcome of that fold
is due. -/
def Due (pending : Option Response) (r : Regs w) : Prop :=
  r.busy = true → unitBit r.opr = true ∧ ∃ d, FoldAt d r ∧ pending = some (foldOutcome r.opr d r.vec)

theorem due_of_not_busy (pending : Option Response) {r : Regs w} (hbusy : r.busy = false) : Due pending r :=
  fun h => absurd h (by simp [hbusy])

theorem due_acceptCommand (c : Command w) {r : Regs w} (hbusy : r.busy = false) (pending : Option Response) :
    Due (pendingAfter .acceptance c pending) (acceptCommand c r) := by
  cases hunit : unitBit c.op with
  | false =>
    rw [acceptCommand_of_enc hunit]
    exact due_of_not_busy _ hbusy
  | true =>
    rw [acceptCommand_of_app hunit]
    refine fun _ => ⟨hunit, c.damage, foldAt_acceptApp _ _ _ _, ?_⟩
    simp [pendingAfter, hunit, contractOutcome_of_app]

theorem due_nextRegs (inp : Inputs w) (k : Nat) {r : Regs w} {pending : Option Response} (h : Due pending r) :
    Due (pendingAfter (stepKind inp r) inp.cmd pending) (nextRegs inp k r) := by
  rw [nextRegs_eq_regsAfterKind]
  have hspec := stepKind_spec inp r
  cases hkind : stepKind inp r <;> rw [hkind] at hspec
  case reset => exact due_of_not_busy _ rfl
  case repetition =>
    obtain ⟨-, hbusy, hrep⟩ := hspec
    obtain ⟨hunit, d, hfold, hpending⟩ := h hbusy
    exact fun _ => ⟨hunit, d, foldAt_repetitionStep hfold hrep, hpending⟩
  case slotAdvance =>
    obtain ⟨-, hbusy, hrep, hidx⟩ := hspec
    obtain ⟨hunit, d, hfold, hpending⟩ := h hbusy
    exact fun _ => ⟨hunit, d, foldAt_slotAdvanceStep hfold hrep hidx, hpending⟩
  case completion => exact due_of_not_busy _ rfl
  case acceptance =>
    obtain ⟨-, hbusy, -⟩ := hspec
    exact due_acceptCommand inp.cmd hbusy pending
  case idle => exact h

theorem Due.response_completionStep {pending : Option Response} {r : Regs w} (h : Due pending r)
    (hbusy : r.busy = true) (hrep : r.rep = 0#w.cw) (hidx : r.idx = 8#4) :
    some (response (completionStep r)) = pending := by
  obtain ⟨hunit, d, hfold, rfl⟩ := h hbusy
  rw [Machine.response_completionStep hunit, foldOutcome, ← foldAt_done hfold hrep hidx]

/-- A step makes observable what the contract demands of it. -/
theorem outcome_eq_demanded {s : State} (hok : s.widths.ok = true) {pending : Option Response}
    (h : Due pending s.regs) : outcome s = demanded (stepKind s.sampled s.regs) s.sampled.cmd pending := by
  rw [outcome_of_step (step_eq_nextRegs s), nextRegs_eq_regsAfterKind]
  have hspec := stepKind_spec s.sampled s.regs
  cases hkind : stepKind s.sampled s.regs <;> rw [hkind] at hspec
  case completion =>
    obtain ⟨-, hbusy, hrep, hidx⟩ := hspec
    exact h.response_completionStep hbusy hrep hidx
  case acceptance =>
    cases hunit : unitBit s.sampled.cmd.op with
    | true => simp [endsCommand, demanded, hunit]
    | false =>
      simp [endsCommand, demanded, hunit, regsAfterKind, acceptCommand_of_enc, contractOutcome_of_enc,
        response_acceptEnc_eq_encZ hok]
  case reset | repetition | slotAdvance | idle => rfl

theorem observation_eq_contractRun (k : Nat) {s : State} (hok : s.widths.ok = true) {pending : Option Response}
    (h : Due pending s.regs) : observation k s = contractRun k pending s := by
  induction k generalizing s pending with
  | zero => rfl
  | succ k ih =>
    have hstep := step_eq_nextRegs s
    rw [observation_succ k hstep, contractRun_succ k pending hstep, outcome_eq_demanded hok h]
    congr 1
    exact ih (s := ⟨s.widths, nextRegs s.sampled s.resets s.regs, _, _⟩) hok (due_nextRegs s.sampled s.resets h)

/-- Settles O54: with no command in progress nothing is due, and every step keeps what is due. -/
theorem observationMeetsContract : Obligations.ObservationMeetsContract :=
  fun k _ hok hbusy => observation_eq_contractRun k hok (due_of_not_busy none hbusy)

end Sys2Proof.Machine

/-! A host that keeps presenting: what a busy engine does with a presented command, and the response the host gets in
the end (60_exceptions.md R134, 70_reset_and_hazards.md R140). -/

namespace Sys2Proof.Machine

/-! ## Presenting to a busy engine -/

theorem step_busy_presenting {s : State} (c : Command s.widths) (hbusy : s.regs.busy = true) :
    step { s with inputs := [Inputs.present c] } = .next { s with regs := reducerStep s.regs, inputs := [] } :=
  step_of_busy rfl hbusy

/-- A busy engine makes its reducer step, and the host presents again (42_command_sequencing.md R114). -/
theorem present_of_busy (i : Instr) {s : State} (hbusy : s.regs.busy = true) (patience : Nat) :
    present i (patience + 1) s = present i patience { s with regs := reducerStep s.regs, inputs := [] } := by
  have hunready : (outputs s.regs).cmdReady = false := by simp [outputs, cmdReady, hbusy]
  simp [present, step_busy_presenting _ hbusy, hunready]

theorem present_of_busyFor (i : Instr) {k : Nat} {s : State} (hbusy : BusyFor k s.regs) :
    ∃ inputs, ∀ patience,
      present i (patience + k) s = present i patience { s with regs := reduceFor k s.regs, inputs := inputs } := by
  induction k generalizing s with
  | zero => exact ⟨s.inputs, fun _ => rfl⟩
  | succ k ih =>
    obtain ⟨⟨hr, -⟩, hrest⟩ := (busyFor_succ_iff k).mp hbusy
    obtain ⟨inputs, hpresent⟩ := ih (s := { s with regs := reducerStep s.regs, inputs := [] }) hrest
    refine ⟨inputs, fun patience => ?_⟩
    rw [← Nat.add_assoc, present_of_busy i hr, hpresent, reduceFor_succ hr]

/-- From legal registers the engine comes to be ready: at once, or after the reducer steps of the older command. -/
theorem exists_busyFor_ready {w : Widths} {r : Regs w} (hlegal : r.legal) :
    ∃ k, BusyFor k r ∧ (reduceFor k r).busy = false := by
  cases hbusy : r.busy with
  | false => exact ⟨0, busyFor_zero r, hbusy⟩
  | true =>
    obtain ⟨k, hk, hend⟩ := exists_reduceFor_endsWith hlegal hbusy
    exact ⟨k, hk, hend.busy_eq⟩

/-! ## The response of a command presented until it is accepted -/

theorem issue_congr {i : Instr} {patience : Nat} {s u : State} (h : present i patience s = present i patience u) :
    issue patience i s = issue patience i u := by
  simp only [issue, h]

/-- A host more patient than the older command issues its own as if it had found the engine ready. -/
theorem exists_ready_issue_eq (i : Instr) {s : State} (hlegal : s.regs.legal) :
    ∃ u k, u.widths = s.widths ∧ u.regs.busy = false ∧
      ∀ patience, k + 1 ≤ patience → issue patience i s = issue patience i u := by
  obtain ⟨k, hk, hready⟩ := exists_busyFor_ready hlegal
  obtain ⟨inputs, hpresent⟩ := present_of_busyFor i hk
  refine ⟨{ s with regs := reduceFor k s.regs, inputs := inputs }, k, rfl, hready, fun patience hle => ?_⟩
  obtain ⟨p, rfl⟩ := Nat.exists_eq_add_of_le' hle
  apply issue_congr
  calc present i (p + (k + 1)) s
    _ = present i (p + 1 + k) s := by rw [Nat.add_assoc, Nat.add_comm 1 k]
    _ = present i (p + 1) _ := hpresent (p + 1)
    _ = present i (p + (k + 1)) _ := (present_of_ready i hready p).trans (present_of_ready i hready (p + k)).symm

theorem issue_one_of_busy (i : Instr) {s : State} (hbusy : s.regs.busy = true) :
    issue 1 i s = .error .notAccepted := by
  have hunaccepted : present i 1 s = none := present_of_busy i hbusy 0
  simp only [issue, hunaccepted]

/-- Settles O57: the host presents through the reducer steps of the older command, and is then one that finds the
engine ready. -/
theorem hostGetsOwnResponse : Obligations.HostGetsOwnResponse := by
  intro i s ⟨hok, hregs⟩ _
  refine ⟨?_, issue_one_of_busy i⟩
  obtain ⟨u, k, huw, hready, hsame⟩ := exists_ready_issue_eq i hregs
  rw [← huw] at hok ⊢
  obtain ⟨t, enough, htw, hidle, hresponse, hissue⟩ := exists_issue i hok hready
  refine ⟨max (k + 1) enough, fun patience hle => ⟨t, ?_, hresponse, htw, by simp [cmdReady, hidle]⟩⟩
  rw [hsame patience (by omega), hissue patience (by omega)]

end Sys2Proof.Machine
